-- ==== Sys2Proof/Word.lean ====
section
/-! DEFINITION. The widths of the machine (00_scope.md R9): bytes, 16-bit words, the 12-bit and
4-bit immediates, and register numbers. Every value is unsigned (R11). -/

namespace Sys2Proof

/-- A general register, a timer or a byte of memory: 8 bits (R9 `REGW`, `TIMERW`). -/
abbrev Byte := BitVec 8

/-- The program counter, the index register, a stack entry or an instruction word: 16 bits
(R9 `PCW`, `IW`, `ILEN`). -/
abbrev Word := BitVec 16

/-- The address immediate `NNN`: 12 bits (30_encoding.md R73). -/
abbrev Addr := BitVec 12

/-- One nibble of an instruction word: 4 bits (R10). -/
abbrev Nibble := BitVec 4

/-- A register number 0x0..0xF; every value names one of V0..VF (10_state.md R22). -/
abbrev Reg := Fin 16

end Sys2Proof
end

