-- ==== Sys2Proof/Config.lean ====
section
/-! DEFINITION. What is fixed for the machine (00_scope.md R9), the type and the default of the
configuration table FONT, and the free values of the random source. -/

namespace Sys2Proof

/-- `MEMSIZE`: 4096 bytes, addresses 0x000..0xFFF (R9, 20_memory.md R50). -/
def Config.memSize : Nat := 4096

/-- `PROG_BASE`: the program load origin and the entry point (R9; 70_reset_and_hazards.md R232). -/
def Config.progBase : Word := 0x200#16

/-- The size of the program region 0x200..0xFFF, the longest image LOAD accepts
(20_memory.md R58; 45_public_accessors.md R191). -/
def Config.maxImage : Nat := 3584

/-- `FONT_BASE` (R9, 20_memory.md R57). -/
def Config.fontBase : Nat := 0

/-- `GLYPH_BYTES` (R9, 42_memory_index.md R142). -/
def Config.glyphBytes : Nat := 5

/-- A configuration table `FONT`: the 80 bytes that construction and RESET copy to 0x000..0x04F, one
glyph of five rows, the top one first, for each hexadecimal digit (20_memory.md R57; D4). The
machine's own table is `State.font`, so that a claim can quantify over it (log entry 14). -/
abbrev Font := Vector Byte 80

/-- The default `FONT` (R57). PRESUMED, unsafe for a claim that takes the default (log entry 4): the
spec itself supplies these bytes from general knowledge. -/
def Config.font : Font := ⟨List.toArray (
  [0xF0#8, 0x90#8, 0x90#8, 0x90#8, 0xF0#8] ++ [0x20#8, 0x60#8, 0x20#8, 0x20#8, 0x70#8] ++
  [0xF0#8, 0x10#8, 0xF0#8, 0x80#8, 0xF0#8] ++ [0xF0#8, 0x10#8, 0xF0#8, 0x10#8, 0xF0#8] ++
  [0x90#8, 0x90#8, 0xF0#8, 0x10#8, 0x10#8] ++ [0xF0#8, 0x80#8, 0xF0#8, 0x10#8, 0xF0#8] ++
  [0xF0#8, 0x80#8, 0xF0#8, 0x90#8, 0xF0#8] ++ [0xF0#8, 0x10#8, 0x20#8, 0x40#8, 0x40#8] ++
  [0xF0#8, 0x90#8, 0xF0#8, 0x90#8, 0xF0#8] ++ [0xF0#8, 0x90#8, 0xF0#8, 0x10#8, 0xF0#8] ++
  [0xF0#8, 0x90#8, 0xF0#8, 0x90#8, 0x90#8] ++ [0xE0#8, 0x90#8, 0xE0#8, 0x90#8, 0xE0#8] ++
  [0xF0#8, 0x80#8, 0x80#8, 0x80#8, 0xF0#8] ++ [0xE0#8, 0x90#8, 0x90#8, 0x90#8, 0xE0#8] ++
  [0xF0#8, 0x80#8, 0xF0#8, 0x80#8, 0xF0#8] ++ [0xF0#8, 0x80#8, 0xF0#8, 0x80#8, 0x80#8]), rfl⟩

/-- `RandomByte`: the host's random source, a FREE VALUE with no body (41_register_arithmetic.md
R132: "any value 0..255", no relation between draws assumed). RND applies it to the counter
`State.draws`. DESIGN CHOICE of the form, safe (log entry 2). -/
opaque Config.randomByte : Nat → Byte

end Sys2Proof
end

