-- ==== Sys2Proof/Syntax.lean ====
section
/-! DEFINITION. The instruction set: one constructor for each of the 34 rows of
spec/opcode_table.json, in the table's order (30_encoding.md R79). The operand types admit
exactly the values the encoding's fields admit (R73, R75). -/

namespace Sys2Proof

inductive Instr where
  /-- `00E0` CLS (R100). -/
  | cls
  /-- `00EE` RET (R101). -/
  | ret
  /-- `1nnn` JP addr (R102). -/
  | jp (nnn : Addr)
  /-- `2nnn` CALL addr (R103). -/
  | call (nnn : Addr)
  /-- `3xkk` SE Vx, byte (R104). -/
  | seByte (x : Reg) (kk : Byte)
  /-- `4xkk` SNE Vx, byte (R105). -/
  | sneByte (x : Reg) (kk : Byte)
  /-- `5xy0` SE Vx, Vy (R106). -/
  | seReg (x y : Reg)
  /-- `6xkk` LD Vx, byte (R121). -/
  | ldByte (x : Reg) (kk : Byte)
  /-- `7xkk` ADD Vx, byte (R122). -/
  | addByte (x : Reg) (kk : Byte)
  /-- `8xy0` LD Vx, Vy (R123). -/
  | ldReg (x y : Reg)
  /-- `8xy1` OR Vx, Vy (R124). -/
  | orReg (x y : Reg)
  /-- `8xy2` AND Vx, Vy (R125). -/
  | andReg (x y : Reg)
  /-- `8xy3` XOR Vx, Vy (R126). -/
  | xorReg (x y : Reg)
  /-- `8xy4` ADD Vx, Vy (R127). -/
  | addReg (x y : Reg)
  /-- `8xy5` SUB Vx, Vy (R128). -/
  | subReg (x y : Reg)
  /-- `8xy6` SHR Vx; Y is decoded and has no effect (R129, R81). -/
  | shr (x y : Reg)
  /-- `8xy7` SUBN Vx, Vy (R130). -/
  | subnReg (x y : Reg)
  /-- `8xyE` SHL Vx; Y is decoded and has no effect (R131, R81). -/
  | shl (x y : Reg)
  /-- `9xy0` SNE Vx, Vy (R107). -/
  | sneReg (x y : Reg)
  /-- `Annn` LD I, addr (R140). -/
  | ldI (nnn : Addr)
  /-- `Bnnn` JP V0, addr (R109). -/
  | jpV0 (nnn : Addr)
  /-- `Cxkk` RND Vx, byte (R132). -/
  | rnd (x : Reg) (kk : Byte)
  /-- `Dxyn` DRW Vx, Vy, nibble (R160). -/
  | drw (x y : Reg) (n : Nibble)
  /-- `Ex9E` SKP Vx (R170). -/
  | skp (x : Reg)
  /-- `ExA1` SKNP Vx (R171). -/
  | sknp (x : Reg)
  /-- `Fx07` LD Vx, DT (R172). -/
  | ldVxDt (x : Reg)
  /-- `Fx0A` LD Vx, K (R173). -/
  | ldVxK (x : Reg)
  /-- `Fx15` LD DT, Vx (R174). -/
  | ldDtVx (x : Reg)
  /-- `Fx18` LD ST, Vx (R175). -/
  | ldStVx (x : Reg)
  /-- `Fx1E` ADD I, Vx (R141). -/
  | addIVx (x : Reg)
  /-- `Fx29` LD F, Vx (R142). -/
  | ldFVx (x : Reg)
  /-- `Fx33` LD B, Vx (R143). -/
  | ldBVx (x : Reg)
  /-- `Fx55` LD [I], Vx (R145). -/
  | storeRegs (x : Reg)
  /-- `Fx65` LD Vx, [I] (R146). -/
  | loadRegs (x : Reg)
  deriving DecidableEq, Repr

end Sys2Proof
end

