-- ==== Sys2Proof/WellFormed.lean ====
section
/-! DEFINITION. What is well formed. Every term of `Instr` is: its operand types admit exactly
the values of the encoding's fields (30_encoding.md R73, R75; "every 4-bit index names a
register", 60_exceptions.md R202), so there is no ill-formed instruction to refuse. What the
spec does refuse are instruction WORDS (30_encoding.md R80), one check a group, and program
IMAGES (45_public_accessors.md R191). The checks below read the word as the number the spec's
table of illegal words writes, and use no decoder. -/

namespace Sys2Proof

/-- Group 0: only `00E0` and `00EE` are legal (R80; D18). -/
def legalGroup0 (w : Nat) : Bool := w == 0x00E0 || w == 0x00EE

/-- Groups 5 and 9: the last nibble is 0 (R80). -/
def legalGroup59 (w : Nat) : Bool := w % 16 == 0

/-- Group 8: the last nibble is one of 0..7 and E (R80). -/
def legalGroup8 (w : Nat) : Bool := decide (w % 16 ≤ 7) || w % 16 == 14

/-- Group E: the low byte is 9E or A1 (R80). -/
def legalGroupE (w : Nat) : Bool := w % 256 == 0x9E || w % 256 == 0xA1

/-- Group F: the low byte is one of nine (R80). -/
def legalGroupF (w : Nat) : Bool :=
  [0x07, 0x0A, 0x15, 0x18, 0x1E, 0x29, 0x33, 0x55, 0x65].contains (w % 256)

/-- The legal words: those of no row of R80's table of illegal words. Groups 1, 2, 3, 4, 6, 7,
A, B, C and D have no illegal word. -/
def legalWord (w : Word) : Bool :=
  match w.toNat / 4096 with
  | 0 => legalGroup0 w.toNat
  | 5 => legalGroup59 w.toNat
  | 8 => legalGroup8 w.toNat
  | 9 => legalGroup59 w.toNat
  | 14 => legalGroupE w.toNat
  | 15 => legalGroupF w.toNat
  | _ => true

/-- A program image LOAD accepts: at most 3584 bytes, any length up to that, odd ones included
(R191; D21). -/
def imageFits (image : List Byte) : Bool := decide (image.length ≤ Config.maxImage)

end Sys2Proof
end

