-- ==== Sys2Proof/Machine/State.lean ====
section
/-! DEFINITION. The machine's state as plain data (10_state.md R20: "exactly this record"), why it
can halt, the state after reset, and one setter a field. -/

namespace Sys2Proof.Machine

/-- The five causes of a fatal condition (60_exceptions.md R201). They are RECORDED IN THE STATE
(`State.fault`), as the spec describes the entry (R204): a meaning or the instruction cycle that
raises one answers a next state, and no step answers `Host.Outcome.fault` (log entry 1). Each is
safe where the spec chose it for an open point of its source (D10 to D13, D18: "toward
unprovable"). -/
inductive Fault where
  /-- Code 1: the word matches no opcode row. Raised by the instruction cycle (R80). Safe (D18). -/
  | unknownInstruction
  /-- Code 2: RET with SP = 0 (R206). Raised by RET. Safe (D11). -/
  | stackUnderflow
  /-- Code 3: CALL with SP = 16 (R207). Raised by CALL. Safe (D10). -/
  | stackOverflow
  /-- Code 4: an accessed address exceeds 0xFFF (20_memory.md R53). Raised by DRW, LD B, LD [I]
  and LD Vx, [I]. Safe (D12). -/
  | dataAddressOutOfRange
  /-- Code 5: pc > 0xFFE at the fetch (20_memory.md R55). Raised by the instruction cycle.
  Safe (D13). -/
  | fetchAddressOutOfRange
  deriving DecidableEq, Repr

/-- Why an instruction has no meaning in the model. -/
inductive Refusal where
  /-- Not modelled yet. Raised by no instruction: every one has its meaning. Safe. -/
  | notModelled (mnemonic : String)
  deriving DecidableEq, Repr

/-- The fatal-condition status (10_state.md R37): the cause, the faulting instruction's address,
its word (0x0000 when the fetch itself failed) and the first offending data address (0x0000 for
every cause but DataAddressOutOfRange). -/
inductive FaultStatus where
  | none
  | halted (cause : Fault) (addr word daddr : Word)
  deriving DecidableEq, Repr

/-- Memory: the bytes that differ from what an unlisted address reads as, by rising address. -/
abbrev Memory := List Host.Cell

/-- The display: 64 × 32 one-bit pixels (00_scope.md R9 `DISP_W` × `DISP_H`), row-major
(10_state.md R35): one row of 64 bits for each y, column x at bit x. -/
abbrev Display := Vector (BitVec 64) 32

/-- The architectural state (10_state.md R20), the configuration table FONT, and one field of the
model's own. -/
structure State where
  /-- General registers V0..VF; VF is the only flag (R22, R28). -/
  v : Vector Byte 16
  /-- Program counter (R26). -/
  pc : Word
  /-- Index register I (R29). -/
  i : Word
  /-- Call-stack entries, the oldest first (R32). -/
  stack : Vector Word 16
  /-- Call-stack depth counter SP, 0..16 (R32, R33). -/
  sp : Fin 17
  /-- Delay timer DT (R30). -/
  dt : Byte
  /-- Sound timer ST (R30). -/
  st : Byte
  /-- The 4096 bytes of memory (R34). -/
  mem : Memory
  /-- The display bitmap (R35). -/
  disp : Display
  /-- Key state, true meaning pressed (R36). -/
  key : Vector Bool 16
  /-- Fatal-condition status (R37). -/
  fault : FaultStatus
  /-- CONFIGURATION, not of R20's record: the table FONT that construction and RESET copy into low
  memory (20_memory.md R57; D4). Nothing changes it (R59). DESIGN CHOICE of the form, safe (log
  entry 14). -/
  font : Font
  /-- THE MODEL'S OWN: how many random bytes have been drawn, the argument of the free value
  `Config.randomByte` at the next RND (R39; log entry 2). -/
  draws : Nat
  deriving DecidableEq, Repr

/-- Construction of a machine with the table `font` (70_reset_and_hazards.md R230; 10_state.md R20).
Memory lists nothing: an unlisted address reads as its reset contents. `draws` is the model's own; its 0 is a DESIGN
CHOICE (log entry 2). -/
def State.construct (font : Font) : State where
  v := Vector.replicate 16 0x00#8
  pc := Config.progBase
  i := 0x0000#16
  stack := Vector.replicate 16 0x0000#16
  sp := 0
  dt := 0x00#8
  st := 0x00#8
  mem := []
  disp := Vector.replicate 32 0#64
  key := Vector.replicate 16 false
  fault := .none
  font := font
  draws := 0

/-- The machine right after reset, with the default FONT (20_memory.md R57). -/
def State.reset : State := State.construct Config.font

/-! ### Reading and writing one field (00_scope.md R12) -/

/-- `V[x]`. -/
def State.reg (s : State) (x : Reg) : Byte := s.v[x.val]

/-- `V[x] <- b`. -/
def State.setReg (s : State) (x : Reg) (b : Byte) : State := { s with v := s.v.set x.val b }

/-- All of V0..VF at once. -/
def State.setV (s : State) (v : Vector Byte 16) : State := { s with v := v }

/-- `pc <- target`. -/
def State.setPc (s : State) (target : Word) : State := { s with pc := target }

/-- `I <- a`. -/
def State.setI (s : State) (a : Word) : State := { s with i := a }

/-- The call stack and its depth counter. -/
def State.setCalls (s : State) (stack : Vector Word 16) (sp : Fin 17) : State :=
  { s with stack := stack, sp := sp }

/-- `DT <- b`. -/
def State.setDt (s : State) (b : Byte) : State := { s with dt := b }

/-- `ST <- b`. -/
def State.setSt (s : State) (b : Byte) : State := { s with st := b }

/-- The memory. -/
def State.setMem (s : State) (m : Memory) : State := { s with mem := m }

/-- The display. -/
def State.setDisp (s : State) (d : Display) : State := { s with disp := d }

/-- The key state. -/
def State.setKeys (s : State) (k : Vector Bool 16) : State := { s with key := k }

/-- The fatal-condition status. -/
def State.setFault (s : State) (f : FaultStatus) : State := { s with fault := f }

/-- The model's own draw counter. -/
def State.setDraws (s : State) (n : Nat) : State := { s with draws := n }

end Sys2Proof.Machine
end

