-- ==== Sys2Proof/Machine/Ops.lean ====
section
/-! DEFINITION. The named operations the meanings share: memory, display, call stack, keys, the
random source, the program counter, the fetch, and taking a fault. -/

namespace Sys2Proof.Machine

/-- What a meaning and a step answer. -/
abbrev Result := Host.Outcome State Fault Refusal

/-! ### Memory (20_memory.md) -/

/-- What an address that memory does not list reads as: its contents after reset, `font` at
0x000..0x04F and 0x00 above (R57, R58; 10_state.md R21). No instruction and no host operation
reaches an address above 0xFFF (R53, R55); 0x00 there is never read by the machine (log
entry 6). -/
def Memory.background (font : Font) (a : Nat) : Byte :=
  if h : Config.fontBase ≤ a ∧ a < Config.fontBase + 80 then font[a - Config.fontBase] else 0x00#8

/-- One byte of memory. -/
def Memory.read (font : Font) : Memory → Nat → Byte
  | [], a => Memory.background font a
  | c :: m, a => if c.1 = a then c.2 else Memory.read font m a

/-- Put a cell at its place among rising addresses. -/
def Memory.insert : Memory → Nat → Byte → Memory
  | [], a, b => [(a, b)]
  | c :: m, a, b => if a < c.1 then (a, b) :: c :: m else c :: Memory.insert m a b

/-- Write one byte and keep the canonical form: the value an unlisted address reads as is not
listed. -/
def Memory.write (font : Font) (m : Memory) (a : Nat) (b : Byte) : Memory :=
  let rest := m.filter (fun c => c.1 != a)
  if b = Memory.background font a then rest else Memory.insert rest a b

/-- The canonical form: addresses strictly rising and below 0x1000, no entry equal to what an
unlisted address reads as. -/
abbrev Memory.wf (font : Font) (m : Memory) : Prop :=
  m.Pairwise (fun c d => c.1 < d.1) ∧
    ∀ c ∈ m, c.1 < Config.memSize ∧ c.2 ≠ Memory.background font c.1

/-- Write bytes at `a`, `a + 1`, …, in ascending order (R60). -/
def Memory.writeBytes (font : Font) : Memory → Nat → List Byte → Memory
  | m, _, [] => m
  | m, a, b :: bs => Memory.writeBytes font (m.write font a b) (a + 1) bs

/-- `mem[a]`. -/
def State.readByte (s : State) (a : Nat) : Byte := s.mem.read s.font a

/-- The bytes at `a`, `a + 1`, …, in ascending order (R60). -/
def State.readBytes (s : State) : Nat → Nat → List Byte
  | _, 0 => []
  | a, n + 1 => s.readByte a :: State.readBytes s (a + 1) n

/-- The word at `a`, the most significant byte at the lower address (R54). -/
def State.readWord (s : State) (a : Nat) : Word := wordOfBytes (s.readByte a) (s.readByte (a + 1))

/-- The bytes stored at `a`, `a + 1`, …, in ascending order (R60). -/
def State.storeBytes (a : Nat) (bytes : List Byte) (s : State) : State :=
  s.setMem (s.mem.writeBytes s.font a bytes)

/-- Every byte of an access of `n` bytes at `a` lies in 0x000..0xFFF; an access of no bytes
checks nothing (R53; D30). -/
def accessInRange (a n : Nat) : Bool := n == 0 || decide (a + n - 1 ≤ 0xFFF)

/-- `max(I, 0x1000)`, the first offending address of an access at I that is out of range
(42_memory_index.md, head). -/
def firstOffending (i : Word) : Word := if i.toNat < 0x1000 then 0x1000#16 else i

/-! ### Faults (60_exceptions.md R200 to R208) -/

/-- The numeric code of a cause (R201; D17). -/
def Fault.code : Fault → Nat
  | .unknownInstruction => 1
  | .stackUnderflow => 2
  | .stackOverflow => 3
  | .dataAddressOutOfRange => 4
  | .fetchAddressOutOfRange => 5

/-- Fault entry (R204): nothing changes but `fault`; pc holds the faulting instruction's address.
There is no vector, handler, saved register or mode (R204), and no instruction returns from a
fault: the way out is RESET (R208; `Machine/HostOps.lean`). -/
def State.faultAt (cause : Fault) (addr word daddr : Word) (s : State) : State :=
  (s.setPc addr).setFault (.halted cause addr word daddr)

/-- `raise` in a meaning: pc is A + 2 there, so the instruction's address is pc − 2, and pc goes
back to it (R204). The word is the instruction's own encoding (log entry 8). -/
def State.raise (cause : Fault) (i : Instr) (daddr : Word) (s : State) : State :=
  s.faultAt cause (s.pc - 2#16) (encode i) daddr

/-- The range check of a data access of `n` bytes at I (20_memory.md R53): all of it before any
read or write. In range the instruction goes on; out of range it raises
DataAddressOutOfRange(max(I, 0x1000)). -/
def State.dataAccess (i : Instr) (n : Nat) (s : State) (goOn : State) : State :=
  if accessInRange s.i.toNat n then goOn
  else s.raise .dataAddressOutOfRange i (firstOffending s.i)

/-! ### The instruction cycle's parts (30_encoding.md R70) -/

/-- The word at pc, or nothing when pc > 0xFFE (20_memory.md R55); no alignment (R56). -/
def State.fetch (s : State) : Option Word :=
  if s.pc.toNat ≤ 0xFFE then some (s.readWord s.pc.toNat) else none

/-- `pc <- A + 2`, before execution (10_state.md R26). -/
def State.advance (s : State) : State := s.setPc (s.pc + 2#16)

/-- `pc <- pc + 2` when the condition holds (40_control_flow.md R108). -/
def State.skipIf (c : Bool) (s : State) : State := if c then s.setPc (s.pc + 2#16) else s

/-- `pc <- pc - 2` (44_input_timers.md R173). -/
def State.rewind (s : State) : State := s.setPc (s.pc - 2#16)

/-! ### The call stack (10_state.md R32, R33) -/

/-- Push a return address, unless 16 entries are in use. -/
def State.push (a : Word) (s : State) : Option State :=
  if h : s.sp.val < 16 then
    some (s.setCalls (s.stack.set s.sp.val a) ⟨s.sp.val + 1, by omega⟩)
  else none

/-- Pop the newest return address, unless none is in use; the entry keeps its value
(40_control_flow.md R101). -/
def State.pop (s : State) : Option (Word × State) :=
  if h : 0 < s.sp.val then
    some (s.stack[s.sp.val - 1], s.setCalls s.stack ⟨s.sp.val - 1, by omega⟩)
  else none

/-! ### Registers V0..Vx as a block (42_memory_index.md R145, R146) -/

/-- The values of V0..Vx in ascending order. -/
def State.regsUpTo (x : Reg) (s : State) : List Byte := s.v.toList.take (x.val + 1)

/-- `V[k] <- mem[I + k]` for k in 0..x; registers above x are not touched. -/
def State.loadUpTo (x : Reg) (s : State) : State :=
  s.setV (Vector.ofFn fun k : Fin 16 =>
    if k ≤ x then s.readByte (s.i.toNat + k.val) else s.v[k.val])

/-! ### The display (10_state.md R35; 43_display.md) -/

/-- `disp[x][y]`. -/
def Display.pixel (d : Display) (x : Fin 64) (y : Fin 32) : Bool := (d[y.val]).getLsbD x.val

/-- `disp[x][y] <- not disp[x][y]`. -/
def Display.toggle (d : Display) (x : Fin 64) (y : Fin 32) : Display :=
  d.set y.val (d[y.val] ^^^ BitVec.twoPow 64 x.val)

/-- Every pixel false (40_control_flow.md R100). -/
def Display.clear : Display := Vector.replicate 32 0#64

/-- `(ox + col) mod 64` (43_display.md R160). -/
def spriteColumn (ox col : Nat) : Fin 64 := ⟨(ox + col) % 64, Nat.mod_lt _ (by decide)⟩

/-- `(oy + row) mod 32` (43_display.md R160). -/
def spriteRow (oy row : Nat) : Fin 32 := ⟨(oy + row) % 32, Nat.mod_lt _ (by decide)⟩

/-- A drawing in progress: the display and whether a pixel went from set to unset
(43_display.md R160). -/
structure Drawing where
  disp : Display
  collided : Bool
  deriving DecidableEq, Repr

/-- XOR one sprite bit onto a pixel. -/
def Drawing.plot (bit : Bool) (x : Fin 64) (y : Fin 32) (d : Drawing) : Drawing :=
  if bit then ⟨d.disp.toggle x y, d.collided || d.disp.pixel x y⟩ else d

/-- One sprite row: eight pixels, the most significant bit first, columns modulo 64. -/
def Drawing.row (b : Byte) (ox : Nat) (y : Fin 32) (d : Drawing) : Drawing :=
  (List.range 8).foldl (fun d col => d.plot (b.getLsbD (7 - col)) (spriteColumn ox col) y) d

/-- The sprite rows from row offset `row` on, rows modulo 32. -/
def Drawing.rows (ox oy : Nat) : Nat → List Byte → Drawing → Drawing
  | _, [], d => d
  | row, b :: bs, d => Drawing.rows ox oy (row + 1) bs (d.row b ox (spriteRow oy row))

/-! ### Keys (10_state.md R36) -/

/-- `key[k]`. -/
def State.pressed (s : State) (k : Fin 16) : Bool := s.key[k.val]

/-- The lowest pressed key (44_input_timers.md R173: ascending scan). -/
def State.firstPressed (s : State) : Option (Fin 16) := (List.finRange 16).find? s.pressed

/-! ### The random source (41_register_arithmetic.md R132) -/

/-- The draw the next RND takes: a free value. -/
def State.nextDraw (s : State) : Byte := Config.randomByte s.draws

end Sys2Proof.Machine
end

