-- ==== Sys2Proof/Machine/Cycle.lean ====
section
/-! DEFINITION. The instruction cycle (30_encoding.md R70), over the way one instruction runs. -/

namespace Sys2Proof.Machine

/-- One STEP (R70), checks in the order of 60_exceptions.md R203: no effect while halted (R205);
the fetch and its range; pc advanced before execution; the decode; the instruction. A failed fetch
and an unknown word leave pc at the instruction's address (R204). -/
def cycle (run : Instr → State → Result) (s : State) : Result :=
  match s.fault with
  | .halted _ _ _ _ => .next s
  | .none =>
    match s.fetch with
    | none => .next (s.faultAt .fetchAddressOutOfRange s.pc 0x0000#16 0x0000#16)
    | some w =>
      match decodeWord w with
      | none => .next (s.faultAt .unknownInstruction s.pc w 0x0000#16)
      | some i => run i s.advance

/-- A word placed where the next STEP fetches it (log entry 9): its two bytes at pc, and no fault
recorded, since a halted machine fetches nothing. Above 0xFFE there is no place for it. -/
def State.placeWord (s : State) (w : Word) : State :=
  if s.pc.toNat ≤ 0xFFE then (s.setFault .none).storeBytes s.pc.toNat (wordBytes w)
  else s.setFault .none

end Sys2Proof.Machine
end

