-- ==== Sys2Proof/Machine/Flags.lean ====
section
/-! DEFINITION. The flag VF (10_state.md R28): what each flag-setting instruction puts there, and
the order of its two writes (41_register_arithmetic.md R120, R133). -/

namespace Sys2Proof.Machine

/-- The register that holds the flag. -/
def flagReg : Reg := 15

/-- `c ? 1 : 0` (00_scope.md R11). -/
def flagByte (c : Bool) : Byte := if c then 1#8 else 0#8

/-- The sum overflowed 8 bits (R127). -/
def carryOut (a b : Byte) : Bool := decide (a.toNat + b.toNat ≥ 256)

/-- `a - b` did not borrow: minuend ≥ subtrahend (R128, R130). -/
def noBorrow (a b : Byte) : Bool := decide (a.toNat ≥ b.toNat)

/-- The bit SHR shifts out: the pre-shift bit 0 (R129). -/
def shiftedOutRight (a : Byte) : Bool := a.getLsbD 0

/-- The bit SHL shifts out: the pre-shift bit 7 (R131). -/
def shiftedOutLeft (a : Byte) : Bool := a.getLsbD 7

/-- `VF <- c ? 1 : 0`. -/
def State.setFlag (c : Bool) (s : State) : State := s.setReg flagReg (flagByte c)

/-- The result to Vx first, the flag to VF second (R133; D7). -/
def State.setResultThenFlag (x : Reg) (result : Byte) (c : Bool) (s : State) : State :=
  (s.setReg x result).setFlag c

end Sys2Proof.Machine
end

