-- ==== Sys2Proof/Machine/Operands.lean ====
section
/-! DEFINITION. Every operand form (30_encoding.md R75, R76): registers are read by `State.reg`,
the byte immediate is the raw field, and the rest is here. -/

namespace Sys2Proof.Machine

/-- `zext_16(NNN)`: the address immediate, zero-extended and unscaled (R75, R76). -/
def zext16 (nnn : Addr) : Word := nnn.setWidth 16

/-- `zext_16(v)` of a byte (00_scope.md R11). -/
def zextByte (b : Byte) : Word := b.setWidth 16

/-- `b & 0x0F` as a number 0..15: a key index (44_input_timers.md R170) or a font digit
(42_memory_index.md R142). -/
def lowNibble (b : Byte) : Fin 16 := ⟨b.toNat % 16, Nat.mod_lt _ (by decide)⟩

/-- `FONT_BASE + (b & 0x0F) * 5` (42_memory_index.md R142; 90_conflicts.md C9). -/
def glyphAddr (b : Byte) : Word :=
  BitVec.ofNat 16 (Config.fontBase + (lowNibble b).val * Config.glyphBytes)

/-- Hundreds, tens and ones of a byte, in that order (42_memory_index.md R143). -/
def bcdDigits (b : Byte) : List Byte :=
  [BitVec.ofNat 8 (b.toNat / 100), BitVec.ofNat 8 (b.toNat / 10 % 10), BitVec.ofNat 8 (b.toNat % 10)]

end Sys2Proof.Machine
end

