-- ==== Sys2Proof/Machine/Alu.lean ====
section
/-! DEFINITION. The register and arithmetic family (41_register_arithmetic.md). Sums and
differences are those of 8-bit numbers, so every result is modulo 256 (R120). -/

namespace Sys2Proof.Machine

/-- LD Vx, byte (R121). -/
def execLdByte (x : Reg) (kk : Byte) (s : State) : Result := .next (s.setReg x kk)

/-- ADD Vx, byte: no carry is kept (R122). -/
def execAddByte (x : Reg) (kk : Byte) (s : State) : Result := .next (s.setReg x (s.reg x + kk))

/-- LD Vx, Vy (R123). -/
def execLdReg (x y : Reg) (s : State) : Result := .next (s.setReg x (s.reg y))

/-- OR Vx, Vy: VF is not written (R124; D9). -/
def execOrReg (x y : Reg) (s : State) : Result := .next (s.setReg x (s.reg x ||| s.reg y))

/-- AND Vx, Vy: VF is not written (R125; D9). -/
def execAndReg (x y : Reg) (s : State) : Result := .next (s.setReg x (s.reg x &&& s.reg y))

/-- XOR Vx, Vy: VF is not written (R126; D9). -/
def execXorReg (x y : Reg) (s : State) : Result := .next (s.setReg x (s.reg x ^^^ s.reg y))

/-- ADD Vx, Vy: VF = carry (R127). -/
def execAddReg (x y : Reg) (s : State) : Result :=
  .next (s.setResultThenFlag x (s.reg x + s.reg y) (carryOut (s.reg x) (s.reg y)))

/-- SUB Vx, Vy: VF = no borrow (R128). -/
def execSubReg (x y : Reg) (s : State) : Result :=
  .next (s.setResultThenFlag x (s.reg x - s.reg y) (noBorrow (s.reg x) (s.reg y)))

/-- SHR Vx: Vx is shifted in place and Y has no effect (R129; D8). -/
def execShr (x _y : Reg) (s : State) : Result :=
  .next (s.setResultThenFlag x (s.reg x >>> 1) (shiftedOutRight (s.reg x)))

/-- SUBN Vx, Vy: VF = no borrow of Vy − Vx (R130). -/
def execSubnReg (x y : Reg) (s : State) : Result :=
  .next (s.setResultThenFlag x (s.reg y - s.reg x) (noBorrow (s.reg y) (s.reg x)))

/-- SHL Vx: Vx is shifted in place and Y has no effect (R131; D8). -/
def execShl (x _y : Reg) (s : State) : Result :=
  .next (s.setResultThenFlag x (s.reg x <<< 1) (shiftedOutLeft (s.reg x)))

/-- RND with the draw it takes (R132). -/
def State.takeRandom (draw : Byte) (x : Reg) (kk : Byte) (s : State) : State :=
  s.setReg x (draw &&& kk)

/-- RND Vx, byte: one fresh draw, a free value (R132; D23, D34). -/
def execRnd (x : Reg) (kk : Byte) (s : State) : Result :=
  .next ((s.takeRandom s.nextDraw x kk).setDraws (s.draws + 1))

end Sys2Proof.Machine
end

