-- ==== Sys2Proof/Machine/Control.lean ====
section
/-! DEFINITION. The control-flow family (40_control_flow.md). In every meaning pc on entry holds
the instruction's address plus 2 (30_encoding.md R70). -/

namespace Sys2Proof.Machine

/-- CLS (R100). -/
def execCls (s : State) : Result := .next (s.setDisp Display.clear)

/-- RET (R101, R206). -/
def execRet (s : State) : Result :=
  match s.pop with
  | some (a, s') => .next (s'.setPc a)
  | none => .next (s.raise .stackUnderflow .ret 0x0000#16)

/-- JP addr (R102). -/
def execJp (nnn : Addr) (s : State) : Result := .next (s.setPc (zext16 nnn))

/-- CALL addr (R103, R207). -/
def execCall (nnn : Addr) (s : State) : Result :=
  match s.push s.pc with
  | some s' => .next (s'.setPc (zext16 nnn))
  | none => .next (s.raise .stackOverflow (.call nnn) 0x0000#16)

/-- SE Vx, byte (R104, R108). -/
def execSeByte (x : Reg) (kk : Byte) (s : State) : Result := .next (s.skipIf (s.reg x == kk))

/-- SNE Vx, byte (R105, R108). -/
def execSneByte (x : Reg) (kk : Byte) (s : State) : Result := .next (s.skipIf (s.reg x != kk))

/-- SE Vx, Vy (R106, R108). -/
def execSeReg (x y : Reg) (s : State) : Result := .next (s.skipIf (s.reg x == s.reg y))

/-- SNE Vx, Vy (R107, R108). -/
def execSneReg (x y : Reg) (s : State) : Result := .next (s.skipIf (s.reg x != s.reg y))

/-- JP V0, addr: a 16-bit sum with no mask (R109; D19). -/
def execJpV0 (nnn : Addr) (s : State) : Result :=
  .next (s.setPc (zextByte (s.reg 0) + zext16 nnn))

end Sys2Proof.Machine
end

