-- ==== Sys2Proof/Machine/Draw.lean ====
section
/-! DEFINITION. The display family (43_display.md): DRW. CLS is in Machine/Control.lean. -/

namespace Sys2Proof.Machine

/-- The sprite of `n` rows at I drawn at (Vx, Vy): the display after it and whether it collided
(R160). -/
def State.drawSprite (x y : Reg) (n : Nibble) (s : State) : Drawing :=
  Drawing.rows (s.reg x).toNat (s.reg y).toNat 0 (s.readBytes s.i.toNat n.toNat) ⟨s.disp, false⟩

/-- DRW Vx, Vy, nibble: VF = collision, written last (R160, R161). -/
def execDrw (x y : Reg) (n : Nibble) (s : State) : Result :=
  .next (s.dataAccess (.drw x y n) n.toNat
    ((s.setDisp (s.drawSprite x y n).disp).setFlag (s.drawSprite x y n).collided))

end Sys2Proof.Machine
end

