-- ==== Sys2Proof/Machine/Index.lean ====
section
/-! DEFINITION. The memory, index, BCD and register-block family (42_memory_index.md). No
instruction of it advances I (R147). -/

namespace Sys2Proof.Machine

/-- LD I, addr (R140). -/
def execLdI (nnn : Addr) (s : State) : Result := .next (s.setI (zext16 nnn))

/-- ADD I, Vx: modulo 65536, VF is not written (R141; D9). -/
def execAddIVx (x : Reg) (s : State) : Result := .next (s.setI (s.i + zextByte (s.reg x)))

/-- LD F, Vx (R142). -/
def execLdFVx (x : Reg) (s : State) : Result := .next (s.setI (glyphAddr (s.reg x)))

/-- LD B, Vx (R143). -/
def execLdBVx (x : Reg) (s : State) : Result :=
  .next (s.dataAccess (.ldBVx x) 3
    (s.storeBytes s.i.toNat (bcdDigits (s.reg x))))

/-- LD [I], Vx (R145). -/
def execStoreRegs (x : Reg) (s : State) : Result :=
  .next (s.dataAccess (.storeRegs x) (x.val + 1)
    (s.storeBytes s.i.toNat (s.regsUpTo x)))

/-- LD Vx, [I] (R146). -/
def execLoadRegs (x : Reg) (s : State) : Result :=
  .next (s.dataAccess (.loadRegs x) (x.val + 1) (s.loadUpTo x))

end Sys2Proof.Machine
end

