-- ==== Sys2Proof/Machine/InputTimers.lean ====
section
/-! DEFINITION. The input and timer family (44_input_timers.md). -/

namespace Sys2Proof.Machine

/-- SKP Vx (R170). -/
def execSkp (x : Reg) (s : State) : Result := .next (s.skipIf (s.pressed (lowNibble (s.reg x))))

/-- SKNP Vx (R171). -/
def execSknp (x : Reg) (s : State) : Result := .next (s.skipIf (!s.pressed (lowNibble (s.reg x))))

/-- LD Vx, DT (R172). -/
def execLdVxDt (x : Reg) (s : State) : Result := .next (s.setReg x s.dt)

/-- LD Vx, K: the lowest pressed key, or pc back to the instruction (R173, R176). -/
def execLdVxK (x : Reg) (s : State) : Result :=
  match s.firstPressed with
  | some k => .next (s.setReg x (BitVec.ofNat 8 k.val))
  | none => .next s.rewind

/-- LD DT, Vx (R174). -/
def execLdDtVx (x : Reg) (s : State) : Result := .next (s.setDt (s.reg x))

/-- LD ST, Vx (R175). -/
def execLdStVx (x : Reg) (s : State) : Result := .next (s.setSt (s.reg x))

end Sys2Proof.Machine
end

