-- ==== Sys2Proof/Machine/Step.lean ====
section
/-! DEFINITION. One STEP of the machine, and an instruction placed for the next one. -/

namespace Sys2Proof.Machine

/-- STEP, "advance one instruction" (30_encoding.md R70). -/
def step (s : State) : Host.Outcome State Fault Refusal := cycle exec s

/-- The instruction whose bits are `w`, numbered as spec/opcode_table.json numbers them, placed
where STEP fetches next (log entry 9). -/
def State.withFetchWord (s : State) (nbits w : Nat) : State :=
  s.placeWord (BitVec.ofNat 16 (w % 2 ^ nbits))

end Sys2Proof.Machine
end

