-- ==== Sys2Proof/Machine/HostOps.lean ====
section
/-! DEFINITION. The host's operations beside STEP (45_public_accessors.md R190), each one atomic,
and the transition system they make with it: any operations in any order
(70_reset_and_hazards.md R239). -/

namespace Sys2Proof.Machine

/-- A timer one tick on: down to zero and no further (44_input_timers.md R177). -/
def countDown (b : Byte) : Byte := if b.toNat > 0 then b - 1#8 else b

/-- TICK: each nonzero timer goes down by one, halted or not (R177; 60_exceptions.md R205). -/
def State.tick (s : State) : State := (s.setDt (countDown s.dt)).setSt (countDown s.st)

/-- KEY: the last write wins; there is no queue (R192). The index is a 4-bit value (D22). -/
def State.keyEvent (k : Fin 16) (pressed : Bool) (s : State) : State :=
  s.setKeys (s.key.set k.val pressed)

/-- LOAD: the image's bytes at 0x200 on, or, over 3584 bytes, no change (R191; D21). Whether it
was rejected is `imageFits` (log entry 10). -/
def State.load (image : List Byte) (s : State) : State :=
  if imageFits image then s.storeBytes Config.progBase.toNat image else s

/-- RESET: the construction state (70_reset_and_hazards.md R230), the machine's own FONT reloaded
(20_memory.md R59). The model's own draw counter goes on, so that draws after a RESET are fresh (log entry 3). -/
def State.hostReset (s : State) : State := (State.construct s.font).setDraws s.draws

/-- The sound output, a level and not stored (10_state.md R38; 44_input_timers.md R178). -/
def State.soundOn (s : State) : Bool := s.st != 0#8

/-- Read display: 2048 Booleans, row-major, pixel (x, y) at linear index x + y×64 (R193). -/
def State.readDisplay (s : State) : Vector Bool 2048 :=
  Vector.ofFn fun k : Fin 2048 => s.disp.pixel ⟨k.val % 64, by omega⟩ ⟨k.val / 64, by omega⟩

/-- What the host reads of the timers and the sound. -/
structure TimerReading where
  dt : Byte
  st : Byte
  soundOn : Bool
  deriving DecidableEq, Repr

/-- Read timers and sound (R195). -/
def State.readTimers (s : State) : TimerReading := ⟨s.dt, s.st, s.soundOn⟩

/-- Read fault status (R196). -/
def State.readFault (s : State) : FaultStatus := s.fault

/-- The operations that change the state (R190). -/
inductive HostOp where
  | step
  | tick
  | key (k : Fin 16) (pressed : Bool)
  | load (image : List Byte)
  | reset
  deriving DecidableEq, Repr

/-- One operation of the host. -/
def HostOp.apply : HostOp → State → Result
  | .step, s => Sys2Proof.Machine.step s
  | .tick, s => .next s.tick
  | .key k p, s => .next (s.keyEvent k p)
  | .load image, s => .next (s.load image)
  | .reset, s => .next s.hostReset

/-- A run: the host's operations one after another. -/
def runOps : List HostOp → State → Result
  | [], s => .next s
  | op :: ops, s =>
    match op.apply s with
    | .next s' => runOps ops s'
    | .fault r => .fault r
    | .refused r => .refused r

end Sys2Proof.Machine
end

