-- ==== Sys2Proof/Safety.lean ====
section
/-! DEFINITION. What counts as a safe run, the states at which STEP changes nothing
(70_reset_and_hazards.md R240), and the invariant every reachable state meets. -/

namespace Sys2Proof.Machine

/-- No fatal condition is recorded. A faulted state is never a successful end (R240). -/
def State.Safe (s : State) : Prop := s.fault = .none

/-- A run of the host's operations that ends with no fatal condition recorded. -/
def SafeRun (ops : List HostOp) (s : State) : Prop := ∃ t, runOps ops s = .next t ∧ t.Safe

/-- The word at pc as the number its two bytes make, the most significant first
(20_memory.md R54). -/
def State.wordAtPc (s : State) : Nat :=
  256 * (s.readByte s.pc.toNat).toNat + (s.readByte (s.pc.toNat + 1)).toNat

/-- End 1 of R240: halted, a failed run. -/
def State.AtHalt (s : State) : Prop := s.fault ≠ .none

/-- End 2 of R240, its one-word form: the word at pc is `1nnn` with `nnn = pc`. DESIGN CHOICE, safe
(log entry 15): R240 also admits "any cycle of instructions that a claim names", and this predicate
leaves such longer cycles to the claim that names one. -/
def State.AtSelfLoop (s : State) : Prop :=
  s.fault = .none ∧ s.pc.toNat ≤ 0xFFE ∧ s.wordAtPc = 0x1000 + s.pc.toNat

/-- End 3 of R240: the word at pc is `Fx0A` and every key is released. -/
def State.AtKeyWait (s : State) : Prop :=
  s.fault = .none ∧ s.pc.toNat ≤ 0xFFE ∧
    (∃ x : Reg, s.wordAtPc = 0xF00A + 256 * x.val) ∧ ∀ k : Fin 16, s.pressed k = false

/-- The record of a fatal condition says what 60_exceptions.md R201 and R204 say of its cause, of
the state it was taken in, which it left as it was. -/
def State.FaultRecordRight (s : State) : Prop :=
  match s.fault with
  | .none => True
  | .halted cause addr word daddr =>
    addr = s.pc ∧
      match cause with
      | .unknownInstruction => s.pc.toNat ≤ 0xFFE ∧ legalWord word = false ∧ daddr = 0
      | .stackUnderflow => s.pc.toNat ≤ 0xFFE ∧ word = 0x00EE#16 ∧ s.sp.val = 0 ∧ daddr = 0
      | .stackOverflow =>
        s.pc.toNat ≤ 0xFFE ∧ word.toNat / 4096 = 2 ∧ s.sp.val = 16 ∧ daddr = 0
      | .dataAddressOutOfRange =>
        s.pc.toNat ≤ 0xFFE ∧ daddr.toNat = max s.i.toNat 0x1000 ∧
          (word.toNat / 4096 = 13 ∨
            word.toNat / 4096 = 15 ∧
              (word.toNat % 256 = 0x33 ∨ word.toNat % 256 = 0x55 ∨ word.toNat % 256 = 0x65))
      | .fetchAddressOutOfRange => s.pc.toNat > 0xFFE ∧ word = 0 ∧ daddr = 0

/-- The invariant. Memory keeps its canonical form; pc never exceeds 0x10FE (10_state.md R27);
every return address in use is some instruction's address plus 2; a recorded fault says the truth
(R204). -/
structure State.Inv (s : State) : Prop where
  mem_wf : s.mem.wf s.font
  pc_bound : s.pc.toNat ≤ 0x10FE
  calls_bound : ∀ k : Fin 16, k.val < s.sp.val → 2 ≤ s.stack[k.val].toNat ∧ s.stack[k.val].toNat ≤ 0x1000
  fault_right : s.FaultRecordRight

end Sys2Proof.Machine
end

