-- ==== Sys2Proof/Certificates/Slice0/Obligations.lean ====
section
/-! DEFINITION. The statements for the provers, each a rule of spec/ or a consequence of several.
In every statement about `exec`, pc on entry holds the instruction's address A plus 2
(30_encoding.md R70); a statement about `step` starts from A. -/

open Sys2Proof Sys2Proof.Machine

namespace Sys2Proof.Claims

/-! ### Vocabulary -/

/-- The word `w`, written as a number, decodes to `i`. -/
def Decodes (w : Nat) (i : Instr) : Prop := decodeWord (BitVec.ofNat 16 w) = some i

/-- What an instruction may change: the registers listed; pc, I, the call stack, DT, ST, the
display, the draw counter where marked; and `len` bytes of memory from `base` on. -/
structure Footprint where
  regs : List Reg := []
  pc : Bool := false
  i : Bool := false
  calls : Bool := false
  dt : Bool := false
  st : Bool := false
  disp : Bool := false
  draws : Bool := false
  base : Nat := 0
  len : Nat := 0

/-- The frame: everything outside the footprint is as before. Keys, the fault status and FONT
are in no footprint: no instruction's own effect changes them. -/
def Frame (f : Footprint) (s t : State) : Prop :=
  (∀ r, r ∉ f.regs → t.reg r = s.reg r) ∧
  (f.pc = false → t.pc = s.pc) ∧
  (f.i = false → t.i = s.i) ∧
  (f.calls = false → t.stack = s.stack ∧ t.sp = s.sp) ∧
  (f.dt = false → t.dt = s.dt) ∧
  (f.st = false → t.st = s.st) ∧
  (f.disp = false → ∀ x y, t.disp.pixel x y = s.disp.pixel x y) ∧
  (f.draws = false → t.draws = s.draws) ∧
  (∀ a, a < f.base ∨ f.base + f.len ≤ a → t.readByte a = s.readByte a) ∧
  (∀ k, t.pressed k = s.pressed k) ∧
  t.fault = s.fault ∧ t.font = s.font

/-- A fault taken in a meaning (60_exceptions.md R204): nothing changes but `fault`, and pc goes
back from A + 2 to the instruction's address A, which the record names. -/
def Raised (cause : Fault) (word : Nat) (daddr : Word) (s t : State) : Prop :=
  t = { s with pc := s.pc - 2#16,
               fault := .halted cause (s.pc - 2#16) (BitVec.ofNat 16 word) daddr }

/-- The data access of `n` bytes at I lies in 0x000..0xFFF (20_memory.md R53). -/
def DataInRange (n : Nat) (s : State) : Prop := s.i.toNat + n ≤ 0x1000

/-- The data access of `n` bytes at I has an address above 0xFFF. -/
def DataOutOfRange (n : Nat) (s : State) : Prop := 0 < n ∧ 0x1000 < s.i.toNat + n

/-- `V[x]` as a number. -/
def val (s : State) (x : Reg) : Nat := (s.reg x).toNat

/-- A taken skip adds 2 to pc (40_control_flow.md R108). -/
def SkipsWhen (c : Prop) (s t : State) : Prop :=
  (c → t.pc = s.pc + 2#16) ∧ (¬ c → t.pc = s.pc)

/-- A one bit of the sprite of `n` rows at I, drawn at (ox, oy), falls on pixel (px, py): some row
and column offset with a one bit (the most significant first) land there modulo 64 and 32
(43_display.md R160). -/
def SpriteOn (s : State) (ox oy n : Nat) (px : Fin 64) (py : Fin 32) : Prop :=
  ∃ row col, row < n ∧ col < 8 ∧
    (s.readByte (s.i.toNat + row)).getLsbD (7 - col) = true ∧
    px.val = (ox + col) % 64 ∧ py.val = (oy + row) % 32

/-- The cause 60_exceptions.md R201 gives for a STEP at `s`, checked in the order of R203, from
the bytes at pc alone. -/
def expectedCause (s : State) : Option Fault :=
  let w := s.wordAtPc
  let x := w / 256 % 16
  if 0xFFE < s.pc.toNat then some .fetchAddressOutOfRange
  else if legalWord (BitVec.ofNat 16 w) = false then some .unknownInstruction
  else if w = 0x00EE ∧ s.sp.val = 0 then some .stackUnderflow
  else if w / 4096 = 2 ∧ s.sp.val = 16 then some .stackOverflow
  else if (w / 4096 = 13 ∧ 0 < w % 16 ∧ 0xFFF < s.i.toNat + w % 16 - 1) ∨
      (w / 4096 = 15 ∧ w % 256 = 0x33 ∧ 0xFFF < s.i.toNat + 2) ∨
      (w / 4096 = 15 ∧ (w % 256 = 0x55 ∨ w % 256 = 0x65) ∧ 0xFFF < s.i.toNat + x)
    then some .dataAddressOutOfRange
  else none

/-- The registers an instruction writes when it completes (10_state.md R25). -/
def writesOf (s : State) : Instr → List Reg
  | .ldByte x _ => [x]
  | .addByte x _ => [x]
  | .ldReg x _ => [x]
  | .orReg x _ => [x]
  | .andReg x _ => [x]
  | .xorReg x _ => [x]
  | .addReg x _ => [x, 15]
  | .subReg x _ => [x, 15]
  | .subnReg x _ => [x, 15]
  | .shr x _ => [x, 15]
  | .shl x _ => [x, 15]
  | .rnd x _ => [x]
  | .drw _ _ _ => [15]
  | .ldVxDt x => [x]
  | .ldVxK x => if ∃ k, s.pressed k = true then [x] else []
  | .loadRegs x => (List.finRange 16).filter fun r => decide (r ≤ x)
  | .cls | .ret | .jp _ | .call _ | .seByte _ _ | .sneByte _ _ | .seReg _ _ | .sneReg _ _
  | .ldI _ | .jpV0 _ | .skp _ | .sknp _ | .ldDtVx _ | .ldStVx _ | .addIVx _ | .ldFVx _
  | .ldBVx _ | .storeRegs _ => []

/-- The registers an instruction reads (10_state.md R25). -/
def readsOf : Instr → List Reg
  | .seByte x _ | .sneByte x _ | .addByte x _ | .shr x _ | .shl x _ | .skp x | .sknp x
  | .ldDtVx x | .ldStVx x | .addIVx x | .ldFVx x | .ldBVx x => [x]
  | .seReg x y | .sneReg x y | .orReg x y | .andReg x y | .xorReg x y | .addReg x y
  | .subReg x y | .subnReg x y | .drw x y _ => [x, y]
  | .ldReg _ y => [y]
  | .jpV0 _ => [0]
  | .storeRegs x => (List.finRange 16).filter fun r => decide (r ≤ x)
  | .cls | .ret | .jp _ | .call _ | .ldByte _ _ | .ldI _ | .rnd _ _ | .ldVxDt _ | .ldVxK _
  | .loadRegs _ => []

/-- pc after an instruction that completes, from pc on entry, A + 2 (10_state.md R27). -/
def pcAfter (s : State) : Instr → Word
  | .jp nnn | .call nnn => nnn.setWidth 16
  | .jpV0 nnn => BitVec.ofNat 16 (val s 0 + nnn.toNat)
  | .ret => if h : 0 < s.sp.val then s.stack[s.sp.val - 1] else s.pc
  | .seByte x kk => if val s x = kk.toNat then s.pc + 2#16 else s.pc
  | .sneByte x kk => if val s x = kk.toNat then s.pc else s.pc + 2#16
  | .seReg x y => if val s x = val s y then s.pc + 2#16 else s.pc
  | .sneReg x y => if val s x = val s y then s.pc else s.pc + 2#16
  | .skp x => if s.pressed (Fin.ofNat 16 (val s x)) then s.pc + 2#16 else s.pc
  | .sknp x => if s.pressed (Fin.ofNat 16 (val s x)) then s.pc else s.pc + 2#16
  | .ldVxK _ => if ∃ k, s.pressed k = true then s.pc else s.pc - 2#16
  | .cls | .ldByte _ _ | .addByte _ _ | .ldReg _ _ | .orReg _ _ | .andReg _ _ | .xorReg _ _
  | .addReg _ _ | .subReg _ _ | .shr _ _ | .subnReg _ _ | .shl _ _ | .ldI _ | .rnd _ _
  | .drw _ _ _ | .ldVxDt _ | .ldDtVx _ | .ldStVx _ | .addIVx _ | .ldFVx _ | .ldBVx _
  | .storeRegs _ | .loadRegs _ => s.pc

/-- The two states agree but for stack entries at SP and above. -/
def SameButStaleEntries (s t : State) : Prop :=
  t = { s with stack := t.stack } ∧
    ∀ k : Fin 16, k.val < s.sp.val → t.stack[k.val] = s.stack[k.val]

/-- A machine as construction and RESET leave it (70_reset_and_hazards.md R230), with the
configuration table `font`. -/
def ConstructedWith (font : Font) (u : State) : Prop :=
  u.font = font ∧
  (∀ r, u.reg r = 0) ∧ u.pc = 0x200#16 ∧ u.i = 0 ∧ u.sp.val = 0 ∧
  (∀ k : Fin 16, u.stack[k.val] = 0) ∧ u.dt = 0 ∧ u.st = 0 ∧
  (∀ x y, u.disp.pixel x y = false) ∧ (∀ k, u.pressed k = false) ∧ u.fault = .none ∧
  (∀ a, ∀ h : a < 80, u.readByte a = font[a]) ∧
  ∀ a, 0x050 ≤ a → a ≤ 0xFFF → u.readByte a = 0

/-- Glyphs as 20_memory.md R57 writes them: five bytes for each digit, the top row first. -/
def defaultGlyphs : List Nat :=
  [0xF0909090F0, 0x2060202070, 0xF010F080F0, 0xF010F010F0] ++
  [0x9090F01010, 0xF080F010F0, 0xF080F090F0, 0xF010204040] ++
  [0xF090F090F0, 0xF090F010F0, 0xF090F09090, 0xE090E090E0] ++
  [0xF0808080F0, 0xE0909090E0, 0xF080F080F0, 0xF080F08080]

end Sys2Proof.Claims

open Sys2Proof.Claims

/-! ### Encoding (30_encoding.md) -/

/-- R73, R74, R79: the bytes of every instruction, with every operand, decode to it, whatever
follows them. -/
def Obligations.DecodeOfEncodeIsTheInstruction : Prop :=
  ∀ (i : Instr) (rest : List Byte), decode (encodeBytes i ++ rest) = .ok (i, rest)

/-- R81: within a legal word every bit is decoded: the instruction's encoding is the word itself. -/
def Obligations.EncodeOfDecodedWordIsTheWord : Prop :=
  ∀ (w : Word) (i : Instr), decodeWord w = some i → encode i = w

/-- R80, R79: a word decodes exactly when R80's table of illegal words does not list it, and
exactly when a row of the opcode table matches it. -/
def Obligations.DecodedWordsAreTheLegalWords : Prop :=
  ∀ w : Word,
    ((decodeWord w).isSome = true ↔ legalWord w = true) ∧
    (legalWord w = true ↔ ∃ row ∈ opcodeTable, matchesRow w row = true)

/-- The rows are disjoint, so every word matches at most one (R78, which the spec marks as its own
inference from R79: "the patterns of rule R79 are disjoint"), and a decoded word matches its
instruction's. -/
def Obligations.WordMatchesAtMostOneRow : Prop :=
  (∀ w : Word, ∀ r₁ ∈ opcodeTable, ∀ r₂ ∈ opcodeTable,
    matchesRow w r₁ = true → matchesRow w r₂ = true → r₁ = r₂) ∧
  ∀ (w : Word) (i : Instr), decodeWord w = some i →
    opcodeRow i ∈ opcodeTable ∧ matchesRow w (opcodeRow i) = true

/-- R79, the vectors of 95_test_vectors.md: one word of each family, and illegal words. A sanity
statement. -/
def Obligations.SampleWordsDecodeAsListed : Prop :=
  Decodes 0x6A02 (.ldByte 10 0x02) ∧ Decodes 0xFA1E (.addIVx 10) ∧ Decodes 0xA20A (.ldI 0x20A) ∧
  Decodes 0xD005 (.drw 0 0 5) ∧ Decodes 0x812E (.shl 1 2) ∧ Decodes 0xE19E (.skp 1) ∧
  Decodes 0xF165 (.loadRegs 1) ∧ Decodes 0x10E0 (.jp 0x0E0) ∧ Decodes 0x5120 (.seReg 1 2) ∧
  decodeWord 0x0000#16 = none ∧ decodeWord 0x5121#16 = none ∧ decodeWord 0x812F#16 = none ∧
  decodeWord 0xE1A2#16 = none ∧ decodeWord 0xF1FF#16 = none

/-! ### The instruction cycle -/

/-- R70: no effect while halted; the fetch check; the big-endian word; an unknown word; else the
decoded instruction runs with pc at A + 2. -/
def Obligations.StepIsTheInstructionCycle : Prop :=
  ∀ s : State,
    (s.fault ≠ .none → step s = .next s) ∧
    (s.fault = .none → 0xFFE < s.pc.toNat →
      step s = .next { s with fault := .halted .fetchAddressOutOfRange s.pc 0 0 }) ∧
    (s.fault = .none → s.pc.toNat ≤ 0xFFE →
      decodeWord (BitVec.ofNat 16 s.wordAtPc) = none →
      step s = .next
        { s with fault := .halted .unknownInstruction s.pc (BitVec.ofNat 16 s.wordAtPc) 0 }) ∧
    ∀ i, s.fault = .none → s.pc.toNat ≤ 0xFFE → Decodes s.wordAtPc i →
      step s = exec i { s with pc := s.pc + 2#16 }

/-- The model's own way to place an instruction (log entry 9): the next STEP fetches and runs it. -/
def Obligations.PlacedWordRunsNext : Prop :=
  ∀ (s : State) (i : Instr), s.pc.toNat ≤ 0xFFE →
    ∃ t, step (s.withFetchWord 16 (encode i).toNat) = exec i t ∧
      t.pc = s.pc + 2#16 ∧ t.fault = .none ∧
      Frame { pc := true, base := s.pc.toNat, len := 2 } { s with fault := .none } t

/-! ### Control flow (40_control_flow.md) -/

/-- R100: CLS sets every pixel false, and changes nothing else. -/
def Obligations.ClsClearsEveryPixel : Prop :=
  ∀ s : State, Decodes 0x00E0 .cls ∧
    ∃ t, exec .cls s = .next t ∧ (∀ x y, t.disp.pixel x y = false) ∧ Frame { disp := true } s t

/-- R101: RET pops the newest return address and resumes there as it is; the entry keeps its
value. With an empty stack it raises StackUnderflow and nothing else changes. -/
def Obligations.RetPopsOrRaisesUnderflow : Prop :=
  ∀ s : State, Decodes 0x00EE .ret ∧
    (∀ h : 0 < s.sp.val, ∃ t, exec .ret s = .next t ∧
      t.sp.val = s.sp.val - 1 ∧ t.pc = s.stack[s.sp.val - 1] ∧ t.stack = s.stack ∧
      Frame { pc := true, calls := true } s t) ∧
    (s.sp.val = 0 → ∃ t, exec .ret s = .next t ∧ Raised .stackUnderflow 0x00EE 0 s t)

/-- R102: JP sets pc to the address, unchecked. -/
def Obligations.JpSetsPcToTheAddress : Prop :=
  ∀ (nnn : Addr) (s : State), Decodes (0x1000 + nnn.toNat) (.jp nnn) ∧
    ∃ t, exec (.jp nnn) s = .next t ∧ t.pc.toNat = nnn.toNat ∧ Frame { pc := true } s t

/-- R109: JP V0 adds V0 to the address with no mask: the sum is at most 0x10FE. -/
def Obligations.JpV0AddsV0WithNoMask : Prop :=
  ∀ (nnn : Addr) (s : State), Decodes (0xB000 + nnn.toNat) (.jpV0 nnn) ∧
    ∃ t, exec (.jpV0 nnn) s = .next t ∧ t.pc.toNat = val s 0 + nnn.toNat ∧
      t.pc.toNat ≤ 0x10FE ∧ Frame { pc := true } s t

/-- R103: CALL pushes pc, which is A + 2, and jumps; with 16 entries in use it raises
StackOverflow and nothing else changes. -/
def Obligations.CallPushesOrRaisesOverflow : Prop :=
  ∀ (nnn : Addr) (s : State), Decodes (0x2000 + nnn.toNat) (.call nnn) ∧
    (∀ _h : s.sp.val < 16, ∃ t, exec (.call nnn) s = .next t ∧
      t.stack[s.sp.val] = s.pc ∧ t.sp.val = s.sp.val + 1 ∧ t.pc.toNat = nnn.toNat ∧
      (∀ k : Fin 16, k.val ≠ s.sp.val → t.stack[k.val] = s.stack[k.val]) ∧
      Frame { pc := true, calls := true } s t) ∧
    (s.sp.val = 16 → ∃ t, exec (.call nnn) s = .next t ∧
      Raised .stackOverflow (0x2000 + nnn.toNat) 0 s t)

/-- R104, R105: the skips on a byte. -/
def Obligations.ByteSkipsCompareWithImmediate : Prop :=
  ∀ (x : Reg) (kk : Byte) (s : State),
    Decodes (0x3000 + 256 * x.val + kk.toNat) (.seByte x kk) ∧
    Decodes (0x4000 + 256 * x.val + kk.toNat) (.sneByte x kk) ∧
    (∃ t, exec (.seByte x kk) s = .next t ∧ SkipsWhen (val s x = kk.toNat) s t ∧
      Frame { pc := true } s t) ∧
    ∃ t, exec (.sneByte x kk) s = .next t ∧ SkipsWhen (val s x ≠ kk.toNat) s t ∧
      Frame { pc := true } s t

/-- R106, R107: the skips on two registers. -/
def Obligations.RegisterSkipsCompareRegisters : Prop :=
  ∀ (x y : Reg) (s : State),
    Decodes (0x5000 + 256 * x.val + 16 * y.val) (.seReg x y) ∧
    Decodes (0x9000 + 256 * x.val + 16 * y.val) (.sneReg x y) ∧
    (∃ t, exec (.seReg x y) s = .next t ∧ SkipsWhen (val s x = val s y) s t ∧
      Frame { pc := true } s t) ∧
    ∃ t, exec (.sneReg x y) s = .next t ∧ SkipsWhen (val s x ≠ val s y) s t ∧
      Frame { pc := true } s t

/-! ### Register and arithmetic (41_register_arithmetic.md) -/

/-- R121, R122, R123: load an immediate, add one modulo 256 with no flag, copy a register. -/
def Obligations.LoadsCopiesAndAddImmediate : Prop :=
  ∀ (x y : Reg) (kk : Byte) (s : State),
    Decodes (0x6000 + 256 * x.val + kk.toNat) (.ldByte x kk) ∧
    Decodes (0x7000 + 256 * x.val + kk.toNat) (.addByte x kk) ∧
    Decodes (0x8000 + 256 * x.val + 16 * y.val) (.ldReg x y) ∧
    (∃ t, exec (.ldByte x kk) s = .next t ∧ val t x = kk.toNat ∧ Frame { regs := [x] } s t) ∧
    (∃ t, exec (.addByte x kk) s = .next t ∧ val t x = (val s x + kk.toNat) % 256 ∧
      Frame { regs := [x] } s t) ∧
    ∃ t, exec (.ldReg x y) s = .next t ∧ val t x = val s y ∧ Frame { regs := [x] } s t

/-- R124, R125, R126: OR, AND and XOR, bit by bit; VF is written only as the destination. -/
def Obligations.BitwiseOpsWriteOnlyTheDestination : Prop :=
  ∀ (x y : Reg) (s : State),
    Decodes (0x8001 + 256 * x.val + 16 * y.val) (.orReg x y) ∧
    Decodes (0x8002 + 256 * x.val + 16 * y.val) (.andReg x y) ∧
    Decodes (0x8003 + 256 * x.val + 16 * y.val) (.xorReg x y) ∧
    (∃ t, exec (.orReg x y) s = .next t ∧
      (∀ k, (t.reg x).getLsbD k = ((s.reg x).getLsbD k || (s.reg y).getLsbD k)) ∧
      Frame { regs := [x] } s t) ∧
    (∃ t, exec (.andReg x y) s = .next t ∧
      (∀ k, (t.reg x).getLsbD k = ((s.reg x).getLsbD k && (s.reg y).getLsbD k)) ∧
      Frame { regs := [x] } s t) ∧
    ∃ t, exec (.xorReg x y) s = .next t ∧
      (∀ k, (t.reg x).getLsbD k = ((s.reg x).getLsbD k ^^ (s.reg y).getLsbD k)) ∧
      Frame { regs := [x] } s t

/-- R127: the sum modulo 256 to Vx, then the carry to VF; with X = F the sum is lost. -/
def Obligations.AddWritesSumThenCarry : Prop :=
  ∀ (x y : Reg) (s : State),
    Decodes (0x8004 + 256 * x.val + 16 * y.val) (.addReg x y) ∧
    ∃ t, exec (.addReg x y) s = .next t ∧
      (x ≠ 15 → val t x = (val s x + val s y) % 256) ∧
      val t 15 = (if val s x + val s y ≥ 256 then 1 else 0) ∧
      Frame { regs := [x, 15] } s t

/-- R128: Vx − Vy modulo 256 to Vx, then 1 to VF when Vx ≥ Vy, else 0. -/
def Obligations.SubWritesDifferenceThenNoBorrow : Prop :=
  ∀ (x y : Reg) (s : State),
    Decodes (0x8005 + 256 * x.val + 16 * y.val) (.subReg x y) ∧
    ∃ t, exec (.subReg x y) s = .next t ∧
      (x ≠ 15 → val t x = (val s x + 256 - val s y) % 256) ∧
      val t 15 = (if val s x ≥ val s y then 1 else 0) ∧
      Frame { regs := [x, 15] } s t

/-- R130: Vy − Vx modulo 256 to Vx, then 1 to VF when Vy ≥ Vx, else 0. -/
def Obligations.SubnWritesReverseDifferenceThenNoBorrow : Prop :=
  ∀ (x y : Reg) (s : State),
    Decodes (0x8007 + 256 * x.val + 16 * y.val) (.subnReg x y) ∧
    ∃ t, exec (.subnReg x y) s = .next t ∧
      (x ≠ 15 → val t x = (val s y + 256 - val s x) % 256) ∧
      val t 15 = (if val s y ≥ val s x then 1 else 0) ∧
      Frame { regs := [x, 15] } s t

/-- R129: Vx halved in place, then its old bit 0 to VF; Y has no effect. -/
def Obligations.ShrHalvesThenOldBitZero : Prop :=
  ∀ (x y : Reg) (s : State),
    Decodes (0x8006 + 256 * x.val + 16 * y.val) (.shr x y) ∧
    ∃ t, exec (.shr x y) s = .next t ∧
      (x ≠ 15 → val t x = val s x / 2) ∧
      val t 15 = val s x % 2 ∧
      (∀ y' : Reg, exec (.shr x y') s = .next t) ∧
      Frame { regs := [x, 15] } s t

/-- R131: Vx doubled modulo 256 in place, then its old bit 7 to VF; Y has no effect. -/
def Obligations.ShlDoublesThenOldBitSeven : Prop :=
  ∀ (x y : Reg) (s : State),
    Decodes (0x800E + 256 * x.val + 16 * y.val) (.shl x y) ∧
    ∃ t, exec (.shl x y) s = .next t ∧
      (x ≠ 15 → val t x = 2 * val s x % 256) ∧
      val t 15 = val s x / 128 ∧
      (∀ y' : Reg, exec (.shl x y') s = .next t) ∧
      Frame { regs := [x, 15] } s t

/-- R133: for the five flag-setting instructions, X = F leaves the flag in VF, whatever the result
was; and Y = F reads the value VF had before the instruction. -/
def Obligations.FlagIsWrittenLastFromOldOperands : Prop :=
  ∀ (x y : Reg) (s : State),
    (∃ t, exec (.addReg 15 y) s = .next t ∧
      val t 15 = (if val s 15 + val s y ≥ 256 then 1 else 0)) ∧
    (∃ t, exec (.subReg 15 y) s = .next t ∧ val t 15 = (if val s 15 ≥ val s y then 1 else 0)) ∧
    (∃ t, exec (.subnReg 15 y) s = .next t ∧ val t 15 = (if val s y ≥ val s 15 then 1 else 0)) ∧
    (∃ t, exec (.shr 15 y) s = .next t ∧ val t 15 = val s 15 % 2) ∧
    (∃ t, exec (.shl 15 y) s = .next t ∧ val t 15 = val s 15 / 128) ∧
    (x ≠ 15 →
      (∃ t, exec (.addReg x 15) s = .next t ∧ val t x = (val s x + val s 15) % 256 ∧
        val t 15 = (if val s x + val s 15 ≥ 256 then 1 else 0)) ∧
      (∃ t, exec (.subReg x 15) s = .next t ∧ val t x = (val s x + 256 - val s 15) % 256 ∧
        val t 15 = (if val s x ≥ val s 15 then 1 else 0)) ∧
      (∃ t, exec (.subnReg x 15) s = .next t ∧ val t x = (val s 15 + 256 - val s x) % 256 ∧
        val t 15 = (if val s 15 ≥ val s x then 1 else 0)) ∧
      (∃ t, exec (.shr x 15) s = .next t ∧ val t x = val s x / 2 ∧ val t 15 = val s x % 2) ∧
      ∃ t, exec (.shl x 15) s = .next t ∧ val t x = 2 * val s x % 256 ∧
        val t 15 = val s x / 128)

/-- R132, for every value of the free draw: Vx is the draw masked by the immediate, one draw is
taken, and nothing else changes. The draw counter is the model's own (log entry 2). -/
def Obligations.RndMasksOneFreeDraw : Prop :=
  ∀ (x : Reg) (kk : Byte) (s : State), Decodes (0xC000 + 256 * x.val + kk.toNat) (.rnd x kk) ∧
    ∃ t, exec (.rnd x kk) s = .next t ∧
      (∀ k, (t.reg x).getLsbD k = ((Config.randomByte s.draws).getLsbD k && kk.getLsbD k)) ∧
      (kk = 0 → val t x = 0) ∧
      t.draws = s.draws + 1 ∧ Frame { regs := [x], draws := true } s t

/-! ### Memory, index, BCD, register block (42_memory_index.md) -/

/-- R140, R141, R142: I from an address, I plus a register modulo 65536, and the glyph of a
register's low nibble. None of them writes VF or faults. -/
def Obligations.IndexRegisterWrites : Prop :=
  ∀ (nnn : Addr) (x : Reg) (s : State),
    Decodes (0xA000 + nnn.toNat) (.ldI nnn) ∧
    Decodes (0xF01E + 256 * x.val) (.addIVx x) ∧
    Decodes (0xF029 + 256 * x.val) (.ldFVx x) ∧
    (∃ t, exec (.ldI nnn) s = .next t ∧ t.i.toNat = nnn.toNat ∧ Frame { i := true } s t) ∧
    (∃ t, exec (.addIVx x) s = .next t ∧ t.i.toNat = (s.i.toNat + val s x) % 65536 ∧
      Frame { i := true } s t) ∧
    ∃ t, exec (.ldFVx x) s = .next t ∧ t.i.toNat = val s x % 16 * 5 ∧ t.i.toNat ≤ 0x4B ∧
      Frame { i := true } s t

/-- R143: hundreds, tens and ones of Vx at I, I + 1 and I + 2; out of range, a fault with nothing
written. -/
def Obligations.BcdStoresThreeDigits : Prop :=
  ∀ (x : Reg) (s : State), Decodes (0xF033 + 256 * x.val) (.ldBVx x) ∧
    (DataInRange 3 s → ∃ t, exec (.ldBVx x) s = .next t ∧
      (t.readByte s.i.toNat).toNat = val s x / 100 ∧
      (t.readByte (s.i.toNat + 1)).toNat = val s x / 10 % 10 ∧
      (t.readByte (s.i.toNat + 2)).toNat = val s x % 10 ∧
      Frame { base := s.i.toNat, len := 3 } s t) ∧
    (DataOutOfRange 3 s → ∃ t, exec (.ldBVx x) s = .next t ∧
      Raised .dataAddressOutOfRange (0xF033 + 256 * x.val)
        (BitVec.ofNat 16 (max s.i.toNat 0x1000)) s t)

/-- R145: V0..Vx to memory from I on, ascending, I unchanged; out of range, a fault with nothing
written. -/
def Obligations.RegisterBlockStore : Prop :=
  ∀ (x : Reg) (s : State), Decodes (0xF055 + 256 * x.val) (.storeRegs x) ∧
    (DataInRange (x.val + 1) s → ∃ t, exec (.storeRegs x) s = .next t ∧
      (∀ k : Reg, k ≤ x → t.readByte (s.i.toNat + k.val) = s.reg k) ∧
      Frame { base := s.i.toNat, len := x.val + 1 } s t) ∧
    (DataOutOfRange (x.val + 1) s → ∃ t, exec (.storeRegs x) s = .next t ∧
      Raised .dataAddressOutOfRange (0xF055 + 256 * x.val)
        (BitVec.ofNat 16 (max s.i.toNat 0x1000)) s t)

/-- R146: memory from I on to V0..Vx, registers above x and I unchanged; out of range, a fault
with no register changed. -/
def Obligations.RegisterBlockLoad : Prop :=
  ∀ (x : Reg) (s : State), Decodes (0xF065 + 256 * x.val) (.loadRegs x) ∧
    (DataInRange (x.val + 1) s → ∃ t, exec (.loadRegs x) s = .next t ∧
      (∀ k : Reg, k ≤ x → t.reg k = s.readByte (s.i.toNat + k.val)) ∧
      Frame { regs := (List.finRange 16).filter fun r => decide (r ≤ x) } s t) ∧
    (DataOutOfRange (x.val + 1) s → ∃ t, exec (.loadRegs x) s = .next t ∧
      Raised .dataAddressOutOfRange (0xF065 + 256 * x.val)
        (BitVec.ofNat 16 (max s.i.toNat 0x1000)) s t)

/-- R148, which the spec marks as its own inference ("The round-trip law"): store V0..Vx, let
anything happen that keeps I and the stored bytes, load: V0..Vx hold what they held at the store,
and the registers above x what they hold at the load. -/
def Obligations.RegisterBlockRoundTrip : Prop :=
  ∀ (x : Reg) (s : State), DataInRange (x.val + 1) s →
    ∃ t, exec (.storeRegs x) s = .next t ∧
      (∀ r, t.reg r = s.reg r) ∧
      ∀ u : State, u.i = s.i →
        (∀ k : Reg, k ≤ x → u.readByte (s.i.toNat + k.val) = t.readByte (s.i.toNat + k.val)) →
        ∃ v, exec (.loadRegs x) u = .next v ∧
          (∀ r, r ≤ x → v.reg r = s.reg r) ∧ ∀ r, x < r → v.reg r = u.reg r

/-- R66, all but its last clause: the bytes a block store or a BCD store puts at pc are the word
the next fetch reads; and the bytes of an image at 0x200 likewise after a LOAD. -/
def Obligations.FetchSeesStoredBytes : Prop :=
  (∀ (x : Reg) (s : State) (k : Fin 16), DataInRange (x.val + 1) s →
    ∀ hk : k.val + 1 ≤ x.val, s.pc.toNat = s.i.toNat + k.val →
      ∃ t, exec (.storeRegs x) s = .next t ∧
        t.fetch.map BitVec.toNat = some (256 * val s k + val s ⟨k.val + 1, by omega⟩)) ∧
  (∀ (x : Reg) (s : State), DataInRange 3 s → s.pc = s.i →
    ∃ t, exec (.ldBVx x) s = .next t ∧
      t.fetch.map BitVec.toNat = some (256 * (val s x / 100) + val s x / 10 % 10)) ∧
  ∀ (hi lo : Byte) (rest : List Byte) (s : State), rest.length ≤ 3582 → s.pc = 0x200#16 →
    (s.load (hi :: lo :: rest)).fetch.map BitVec.toNat = some (256 * hi.toNat + lo.toNat)

/-! ### Display (43_display.md) -/

/-- R160: every pixel under a one bit of the sprite is toggled and no other; VF is 1 when a pixel
went from set to unset, else 0; out of range, a fault that changes neither. -/
def Obligations.DrawXorsEveryPixelAndReportsCollision : Prop :=
  ∀ (x y : Reg) (n : Nibble) (s : State),
    Decodes (0xD000 + 256 * x.val + 16 * y.val + n.toNat) (.drw x y n) ∧
    (n.toNat = 0 ∨ DataInRange n.toNat s → ∃ t, exec (.drw x y n) s = .next t ∧
      (∀ px py,
        (SpriteOn s (val s x) (val s y) n.toNat px py →
          t.disp.pixel px py = !s.disp.pixel px py) ∧
        (¬ SpriteOn s (val s x) (val s y) n.toNat px py →
          t.disp.pixel px py = s.disp.pixel px py)) ∧
      ((∃ px py, SpriteOn s (val s x) (val s y) n.toNat px py ∧ s.disp.pixel px py = true) →
        val t 15 = 1) ∧
      ((¬ ∃ px py, SpriteOn s (val s x) (val s y) n.toNat px py ∧ s.disp.pixel px py = true) →
        val t 15 = 0) ∧
      Frame { regs := [15], disp := true } s t) ∧
    (DataOutOfRange n.toNat s → ∃ t, exec (.drw x y n) s = .next t ∧
      Raised .dataAddressOutOfRange (0xD000 + 256 * x.val + 16 * y.val + n.toNat)
        (BitVec.ofNat 16 (max s.i.toNat 0x1000)) s t)

/-- R161's first corner, the spec's own inference ("N = 0 draws nothing, reads no memory"): N = 0
draws nothing, cannot fault whatever I is, and sets VF = 0. -/
def Obligations.DrawOfNoRowsOnlyClearsFlag : Prop :=
  ∀ (x y : Reg) (s : State), ∃ t, exec (.drw x y 0) s = .next t ∧
    val t 15 = 0 ∧ Frame { regs := [15] } s t

/-- R162, the spec's own inference ("restores the display"): the same sprite at the same origin,
drawn twice in a row, restores every pixel; VF after the first draw is 1 iff a pixel under a one
bit was set, and after the second iff one was clear. -/
def Obligations.DrawTwiceRestoresTheDisplay : Prop :=
  ∀ (x y : Reg) (n : Nibble) (s : State), n.toNat = 0 ∨ DataInRange n.toNat s →
    ∃ t, exec (.drw x y n) s = .next t ∧
      (val t 15 = 1 ↔
        ∃ px py, SpriteOn s (val s x) (val s y) n.toNat px py ∧ s.disp.pixel px py = true) ∧
      ∀ u : State, u.disp = t.disp → (∀ a, u.readByte a = t.readByte a) → u.i = t.i →
        u.reg x = s.reg x → u.reg y = s.reg y →
        ∃ v, exec (.drw x y n) u = .next v ∧
          (∀ px py, v.disp.pixel px py = s.disp.pixel px py) ∧
          (val v 15 = 1 ↔
            ∃ px py, SpriteOn s (val s x) (val s y) n.toNat px py ∧ s.disp.pixel px py = false)

/-! ### Input and timers (44_input_timers.md) -/

/-- R170, R171: the skips on a key, by the register's low nibble. -/
def Obligations.KeySkipsTestTheLowNibblesKey : Prop :=
  ∀ (x : Reg) (s : State),
    Decodes (0xE09E + 256 * x.val) (.skp x) ∧ Decodes (0xE0A1 + 256 * x.val) (.sknp x) ∧
    (∃ t, exec (.skp x) s = .next t ∧
      SkipsWhen (∃ k : Fin 16, k.val = val s x % 16 ∧ s.pressed k = true) s t ∧
      Frame { pc := true } s t) ∧
    ∃ t, exec (.sknp x) s = .next t ∧
      SkipsWhen (∃ k : Fin 16, k.val = val s x % 16 ∧ s.pressed k = false) s t ∧
      Frame { pc := true } s t

/-- R173: the lowest pressed key to Vx, pc stays A + 2; with none pressed, pc goes back to A and
nothing else changes. -/
def Obligations.KeyWaitTakesTheLowestKeyOrRewinds : Prop :=
  ∀ (x : Reg) (s : State), Decodes (0xF00A + 256 * x.val) (.ldVxK x) ∧
    (∀ k : Fin 16, s.pressed k = true → (∀ j, j < k → s.pressed j = false) →
      ∃ t, exec (.ldVxK x) s = .next t ∧ val t x = k.val ∧ Frame { regs := [x] } s t) ∧
    ((∀ k, s.pressed k = false) →
      ∃ t, exec (.ldVxK x) s = .next t ∧ t = { s with pc := s.pc - 2#16 })

/-- R176: with no key pressed, any number of STEPs at a key wait leave the whole state as it is;
the STEP after a KEY press ends the stall. -/
def Obligations.KeyWaitStallsUntilAKeyPress : Prop :=
  ∀ (s : State) (x : Reg) (n : Nat),
    s.fault = .none → s.pc.toNat ≤ 0xFFE → s.wordAtPc = 0xF00A + 256 * x.val →
    (∀ k, s.pressed k = false) →
    runOps (List.replicate n .step) s = .next s ∧
    ∀ k : Fin 16, ∃ t, runOps (List.replicate n .step ++ [.key k true, .step]) s = .next t ∧
      val t x = k.val ∧ t.pc = s.pc + 2#16

/-- R172, R174, R175: DT to a register, a register to DT, a register to ST with the sound output
following at once. -/
def Obligations.TimerRegisterMoves : Prop :=
  ∀ (x : Reg) (s : State),
    Decodes (0xF007 + 256 * x.val) (.ldVxDt x) ∧ Decodes (0xF015 + 256 * x.val) (.ldDtVx x) ∧
    Decodes (0xF018 + 256 * x.val) (.ldStVx x) ∧
    (∃ t, exec (.ldVxDt x) s = .next t ∧ t.reg x = s.dt ∧ Frame { regs := [x] } s t) ∧
    (∃ t, exec (.ldDtVx x) s = .next t ∧ t.dt = s.reg x ∧ Frame { dt := true } s t) ∧
    ∃ t, exec (.ldStVx x) s = .next t ∧ t.st = s.reg x ∧ (t.soundOn = true ↔ val s x ≠ 0) ∧
      Frame { st := true } s t

/-- R177: TICK takes each nonzero timer down by one and changes nothing else, halted or not. -/
def Obligations.TickCountsBothTimersDown : Prop :=
  ∀ s : State, ∃ t, HostOp.tick.apply s = .next t ∧
    t.dt.toNat = s.dt.toNat - 1 ∧ t.st.toNat = s.st.toNat - 1 ∧
    t = { s with dt := t.dt, st := t.st }

/-- R178, R38: the sound output is on exactly while ST is not 0. Only LD ST, Vx turns it on among
the instructions; TICK turns it off exactly when ST is 1, and never on. -/
def Obligations.SoundFollowsTheSoundTimer : Prop :=
  (∀ s : State, s.soundOn = true ↔ s.st.toNat ≠ 0) ∧
  (∀ (i : Instr) (s t : State), exec i s = .next t → t.soundOn ≠ s.soundOn →
    ∃ x, i = .ldStVx x ∧ (t.soundOn = true ↔ val s x ≠ 0)) ∧
  ∀ s : State, (s.soundOn = true ∧ s.tick.soundOn = false ↔ s.st.toNat = 1) ∧
    (s.soundOn = false → s.tick.soundOn = false)

/-! ### Host operations (45_public_accessors.md, 70_reset_and_hazards.md) -/

/-- R191: LOAD of at most 3584 bytes is accepted, puts them at 0x200 on and changes nothing else; of
more, it is rejected and changes nothing. That `imageFits` shows the rejection is the model's
choice (log entry 10). -/
def Obligations.LoadCopiesTheImageOrRejectsIt : Prop :=
  ∀ (image : List Byte) (s : State),
    (image.length ≤ 3584 → imageFits image = true ∧
      ∃ t, (HostOp.load image).apply s = .next t ∧
      (∀ k, ∀ h : k < image.length, t.readByte (0x200 + k) = image[k]) ∧
      (∀ a, a < 0x200 ∨ 0x200 + image.length ≤ a → t.readByte a = s.readByte a) ∧
      t = { s with mem := t.mem }) ∧
    (3584 < image.length → imageFits image = false ∧ (HostOp.load image).apply s = .next s)

/-- R192: KEY sets one key and changes nothing else; the last write wins, and a repeated one has
no effect. -/
def Obligations.KeySetsOneKeyLastWriteWins : Prop :=
  ∀ (k : Fin 16) (p q : Bool) (s : State), ∃ t, (HostOp.key k p).apply s = .next t ∧
    t.pressed k = p ∧ (∀ j, j ≠ k → t.pressed j = s.pressed j) ∧ t = { s with key := t.key } ∧
    (HostOp.key k p).apply t = .next t ∧
    (HostOp.key k q).apply t = (HostOp.key k q).apply s

/-- R193, R195, R196: what the host reads: the bitmap by linear index x + y×64, the timers with
the sound output, the fault status. -/
def Obligations.HostReadsTheState : Prop :=
  ∀ s : State,
    (∀ (x : Fin 64) (y : Fin 32), ∀ h : x.val + y.val * 64 < 2048,
      s.readDisplay[x.val + y.val * 64] = s.disp.pixel x y) ∧
    s.readTimers.dt = s.dt ∧ s.readTimers.st = s.st ∧
    (s.readTimers.soundOn = true ↔ s.st.toNat ≠ 0) ∧ s.readFault = s.fault

/-- R230: RESET, from any state, and construction, with any FONT: every register, I, SP, the stack,
both timers, every pixel and every key at zero, the machine's FONT at 0x000..0x04F and every other
byte 0x00, pc = 0x200, no fault. -/
def Obligations.ResetRestoresTheConstructionState : Prop :=
  (∀ s : State, ∃ t, HostOp.reset.apply s = .next t ∧ ConstructedWith s.font t) ∧
  (∀ font : Font, ConstructedWith font (State.construct font)) ∧
  ConstructedWith Config.font State.reset

/-- R231, the spec's own inference ("RESET erases the program"): after RESET the program region is
0x00, and RESET is the only operation that clears a fault: every other one keeps the record as it
is. -/
def Obligations.OnlyResetClearsAFault : Prop :=
  (∀ s : State, ∃ t, HostOp.reset.apply s = .next t ∧ t.fault = .none ∧
    ∀ a, 0x200 ≤ a → a ≤ 0xFFF → t.readByte a = 0) ∧
  ∀ (op : HostOp) (s : State), s.fault ≠ .none → op ≠ .reset →
    ∃ t, op.apply s = .next t ∧ t.fault = s.fault

/-- R233, the spec's own inference: "A STEP before any LOAD fetches 0x0000". A STEP of a machine
just constructed, with any FONT, fetches 0x0000 at 0x200 and raises UnknownInstruction. -/
def Obligations.StepBeforeLoadIsUnknown : Prop :=
  ∀ font : Font, step (State.construct font) = .next
    { State.construct font with fault := .halted .unknownInstruction 0x200#16 0x0000#16 0 }

/-! ### Faults (60_exceptions.md) -/

/-- R205: while halted, STEP has no effect; TICK still counts down, KEY and LOAD still write, every
read still answers; only RESET clears the fault. -/
def Obligations.HaltedMachineOnlyStepsStop : Prop :=
  ∀ s : State, s.fault ≠ .none →
    HostOp.step.apply s = .next s ∧
    (∃ t, HostOp.tick.apply s = .next t ∧ t.dt.toNat = s.dt.toNat - 1 ∧
      t.st.toNat = s.st.toNat - 1 ∧ t.fault = s.fault) ∧
    (∀ k p, ∃ t, (HostOp.key k p).apply s = .next t ∧ t.pressed k = p ∧ t.fault = s.fault) ∧
    (∀ image : List Byte, ∃ t, (HostOp.load image).apply s = .next t ∧ t.fault = s.fault ∧
      (image.length ≤ 3584 →
        ∀ k, ∀ h : k < image.length, t.readByte (0x200 + k) = image[k])) ∧
    s.readFault = s.fault ∧ s.readTimers.dt = s.dt ∧ s.readTimers.st = s.st ∧
    (∀ (x : Fin 64) (y : Fin 32), ∀ h : x.val + y.val * 64 < 2048,
      s.readDisplay[x.val + y.val * 64] = s.disp.pixel x y) ∧
    ∃ t, HostOp.reset.apply s = .next t ∧ t.fault = .none

/-- R204: faults are precise. A STEP that raises changes nothing but `fault` (pc keeps A), and the
record holds a cause, A, the fetched word (0x0000 for a failed fetch) and max(I, 0x1000) for a bad
data address, 0x0000 otherwise. -/
def Obligations.FaultsArePrecise : Prop :=
  ∀ s t : State, s.fault = .none → step s = .next t → t.fault ≠ .none →
    ∃ cause word daddr, t = { s with fault := .halted cause s.pc word daddr } ∧
      word = (if cause = .fetchAddressOutOfRange then 0 else BitVec.ofNat 16 s.wordAtPc) ∧
      daddr = (if cause = .dataAddressOutOfRange then BitVec.ofNat 16 (max s.i.toNat 0x1000)
        else 0)

/-- R201, R202 and R203, of which the spec marks the last two as its own inferences ("No other
condition faults", "At most one cause applies per STEP"): no effect while halted; else a STEP
raises exactly the cause its conditions give, checked in R203's order, and none when none holds.
-/
def Obligations.FaultCauseIsTheFirstThatHolds : Prop :=
  ∀ s : State, (s.fault ≠ .none → step s = .next s) ∧ (s.fault = .none → ∃ t, step s = .next t ∧
    (∀ cause, expectedCause s = some cause →
      ∃ addr word daddr, t.fault = .halted cause addr word daddr) ∧
    (expectedCause s = none → t.fault = .none))

/-- THE MODEL'S CHOICE (log entry 1): a fault is a next state that records it, so every instruction
and every STEP, on every state, answers a next state, never the outcome fault or refused. That no
operation is without a result is the spec's: 93_implementation_defined.md, "every operation on
every state has a defined result, a fault, or (RND) a draw". -/
def Obligations.EveryStepAnswersANextState : Prop :=
  (∀ (i : Instr) (s : State), ∃ t, exec i s = .next t) ∧
  (∀ s : State, ∃ t, step s = .next t) ∧
  ∀ (ops : List HostOp) (s : State), ∃ t, runOps ops s = .next t

/-! ### Invariants and whole-machine rules -/

/-- The state after reset meets the invariant, and so does construction with any FONT. -/
def Obligations.ResetMeetsTheInvariant : Prop :=
  State.reset.Inv ∧ ∀ font : Font, (State.construct font).Inv

/-- Every STEP keeps the invariant: memory's canonical form, pc ≤ 0x10FE (R27), return addresses in
use, a truthful fault record (R204). -/
def Obligations.StepKeepsTheInvariant : Prop :=
  ∀ s t : State, s.Inv → step s = .next t → t.Inv

/-- Every run of host operations, in any order, keeps the invariant (70_reset_and_hazards.md
R239). -/
def Obligations.EveryRunKeepsTheInvariant : Prop :=
  ∀ (ops : List HostOp) (s t : State), s.Inv → runOps ops s = .next t → t.Inv

/-- R27: how each instruction that completes leaves pc. -/
def Obligations.EachInstructionLeavesPcAsListed : Prop :=
  ∀ (i : Instr) (s t : State), s.fault = .none → exec i s = .next t → t.fault = .none →
    t.pc = pcAfter s i

/-- R25, the writes: an instruction that completes changes no register that R25 does not list for
it. -/
def Obligations.OnlyListedRegistersChange : Prop :=
  ∀ (i : Instr) (s t : State), exec i s = .next t →
    ∀ r, r ∉ writesOf s i → t.reg r = s.reg r

/-- R25, the reads: a state that differs only in registers R25 does not list as read, and an
instruction that completes: everything but the registers ends the same, each register written ends
the same, and each other register keeps its own value. -/
def Obligations.OnlyListedRegistersMatter : Prop :=
  ∀ (i : Instr) (s t : State) (v : Vector Byte 16),
    (∀ r ∈ readsOf i, (s.setV v).reg r = s.reg r) →
    s.fault = .none → exec i s = .next t → t.fault = .none →
    ∃ u, exec i (s.setV v) = .next u ∧ u.setV t.v = t ∧
      (∀ r ∈ writesOf s i, u.reg r = t.reg r) ∧
      ∀ r, r ∉ writesOf s i → u.reg r = (s.setV v).reg r

/-- R29, R30, R32, R35, R36, 20_memory.md R50: each piece of state has only its own writers among
the instructions. -/
def Obligations.EachStatePieceHasOnlyItsWriters : Prop :=
  ∀ (i : Instr) (s t : State), exec i s = .next t →
    ((∀ nnn x, i ≠ .ldI nnn ∧ i ≠ .addIVx x ∧ i ≠ .ldFVx x) → t.i = s.i) ∧
    ((∀ x, i ≠ .ldDtVx x) → t.dt = s.dt) ∧
    ((∀ x, i ≠ .ldStVx x) → t.st = s.st) ∧
    ((∀ nnn, i ≠ .ret ∧ i ≠ .call nnn) → t.stack = s.stack ∧ t.sp = s.sp) ∧
    ((∀ x y n, i ≠ .cls ∧ i ≠ .drw x y n) → t.disp = s.disp) ∧
    ((∀ x, i ≠ .ldBVx x ∧ i ≠ .storeRegs x) → t.mem = s.mem) ∧
    ((∀ x kk, i ≠ .rnd x kk) → t.draws = s.draws) ∧
    t.key = s.key ∧ t.font = s.font

/-- R30: ST is read by no instruction: a STEP from a state that differs in ST alone ends in a state
that differs at most in ST. -/
def Obligations.SoundTimerIsReadByNoInstruction : Prop :=
  ∀ (s t : State) (b : Byte), step s = .next t →
    ∃ u, step (s.setSt b) = .next u ∧ u.setSt t.st = t ∧ (u.st = b ∨ u.st = t.st)

/-- R32: entries at SP and above are stale and no instruction can read them: a STEP from a state
that differs in them alone ends in a state that differs in them alone. -/
def Obligations.StaleStackEntriesAreUnreadable : Prop :=
  ∀ s s' t : State, SameButStaleEntries s s' → step s = .next t →
    ∃ t', step s' = .next t' ∧ SameButStaleEntries t t'

/-- R240: at a halt, a one-word self-loop and a key wait, any number of STEPs leave the state as it
is. That end 2 is the one-word loop here, a longer cycle being left to the claim that names it, is
the model's choice (log entry 15). -/
def Obligations.EndStatesAreFixed : Prop :=
  ∀ (s : State) (n : Nat), s.AtHalt ∨ s.AtSelfLoop ∨ s.AtKeyWait →
    runOps (List.replicate n .step) s = .next s

/-- Memory as data: in the canonical form, under one FONT, memories that read the same on
0x000..0xFFF are equal. The form is the model's own (log entry 6). -/
def Obligations.CanonicalMemoriesAreEqualWhenTheyReadTheSame : Prop :=
  ∀ (font : Font) (m m' : Memory), m.wf font → m'.wf font →
    (∀ a, a ≤ 0xFFF → m.read font a = m'.read font a) → m = m'

/-! ### The font table (20_memory.md) -/

/-- R57, for any FONT: while the table stands in low memory, LD F, Vx points I at the five bytes of
the glyph of Vx's low nibble. And the default table, byte by byte: PRESUMED, the spec's general
knowledge (log entry 4). That FONT is a field of the state is the model's choice (log entry 14). -/
def Obligations.LdFPointsAtTheGlyphOfTheFont : Prop :=
  (∀ (x : Reg) (s : State), (∀ a, ∀ h : a < 80, s.readByte a = s.font[a]) →
    ∃ t, exec (.ldFVx x) s = .next t ∧
      ∀ row, ∀ _h : row < 5,
        t.readByte (t.i.toNat + row) = s.font[5 * (val s x % 16) + row]) ∧
  ∀ d : Fin 16, ∀ row, ∀ _h : row < 5,
    (Config.font[5 * d.val + row]).toNat = defaultGlyphs.getD d.val 0 / 256 ^ (4 - row) % 256
end

