-- ==== Sys2Proof/Laws/Decode.lean ====
section
/-! SUPPORT. The fields of a word built in each format (30_encoding.md R74), and the bytes of a
word. Every lemma about decoding an encoded instruction goes through these. -/

namespace Sys2Proof

@[simp] theorem regOfNibble_nibbleOfReg (x : Reg) : regOfNibble (nibbleOfReg x) = x := by
  refine Fin.ext ?_
  simp [regOfNibble, nibbleOfReg]

@[simp] theorem nibbleOfReg_regOfNibble (n : Nibble) : nibbleOfReg (regOfNibble n) = n := by
  simp [regOfNibble, nibbleOfReg]

/-! ### Words as numbers -/

theorem formatA_toNat (g : Nibble) (nnn : Addr) :
    (formatA g nnn).toNat = 4096 * g.toNat + nnn.toNat := by
  have h : (formatA g nnn).toNat = (g ++ nnn).toNat := rfl
  rw [h, BitVec.toNat_append, ← Nat.shiftLeft_add_eq_or_of_lt nnn.isLt, Nat.shiftLeft_eq]
  omega

theorem nibbleOfReg_toNat (x : Reg) : (nibbleOfReg x).toNat = x.val := by
  simp [nibbleOfReg]

theorem formatXNN_toNat (g : Nibble) (x : Reg) (kk : Byte) :
    (formatXNN g x kk).toNat = 4096 * g.toNat + 256 * x.val + kk.toNat := by
  have h : (formatXNN g x kk).toNat = (g ++ nibbleOfReg x ++ kk).toNat := rfl
  rw [h, BitVec.toNat_append, BitVec.toNat_append, ← Nat.shiftLeft_add_eq_or_of_lt kk.isLt,
    ← Nat.shiftLeft_add_eq_or_of_lt (nibbleOfReg x).isLt, nibbleOfReg_toNat, Nat.shiftLeft_eq,
    Nat.shiftLeft_eq]
  omega

theorem formatXYN_toNat (g : Nibble) (x y : Reg) (n : Nibble) :
    (formatXYN g x y n).toNat = 4096 * g.toNat + 256 * x.val + 16 * y.val + n.toNat := by
  have h : (formatXYN g x y n).toNat = (g ++ nibbleOfReg x ++ nibbleOfReg y ++ n).toNat := rfl
  rw [h, BitVec.toNat_append, BitVec.toNat_append, BitVec.toNat_append,
    ← Nat.shiftLeft_add_eq_or_of_lt n.isLt, ← Nat.shiftLeft_add_eq_or_of_lt (nibbleOfReg y).isLt,
    ← Nat.shiftLeft_add_eq_or_of_lt (nibbleOfReg x).isLt, nibbleOfReg_toNat, nibbleOfReg_toNat,
    Nat.shiftLeft_eq, Nat.shiftLeft_eq, Nat.shiftLeft_eq]
  omega

/-! ### Fields as numbers -/

theorem fieldG_toNat (w : Word) : (fieldG w).toNat = w.toNat / 4096 := by
  have := w.isLt
  simp only [fieldG, BitVec.extractLsb'_toNat, Nat.shiftRight_eq_div_pow]
  omega

theorem fieldX_val (w : Word) : (fieldX w).val = w.toNat / 256 % 16 := by
  simp only [fieldX, regOfNibble, BitVec.extractLsb'_toNat, Nat.shiftRight_eq_div_pow]

theorem fieldY_val (w : Word) : (fieldY w).val = w.toNat / 16 % 16 := by
  simp only [fieldY, regOfNibble, BitVec.extractLsb'_toNat, Nat.shiftRight_eq_div_pow]

theorem fieldN_toNat (w : Word) : (fieldN w).toNat = w.toNat % 16 := by
  simp only [fieldN, BitVec.extractLsb'_toNat, Nat.shiftRight_zero]

theorem fieldNN_toNat (w : Word) : (fieldNN w).toNat = w.toNat % 256 := by
  simp only [fieldNN, BitVec.extractLsb'_toNat, Nat.shiftRight_zero]

theorem fieldNNN_toNat (w : Word) : (fieldNNN w).toNat = w.toNat % 4096 := by
  simp only [fieldNNN, BitVec.extractLsb'_toNat, Nat.shiftRight_zero]

/-! ### The fields of a format -/

section
variable (g n : Nibble) (x y : Reg) (kk : Byte) (nnn : Addr)

@[simp] theorem fieldG_formatA : fieldG (formatA g nnn) = g := by
  apply BitVec.eq_of_toNat_eq
  rw [fieldG_toNat, formatA_toNat]; omega

@[simp] theorem fieldNNN_formatA : fieldNNN (formatA g nnn) = nnn := by
  apply BitVec.eq_of_toNat_eq
  rw [fieldNNN_toNat, formatA_toNat]; omega

@[simp] theorem fieldG_formatXNN : fieldG (formatXNN g x kk) = g := by
  apply BitVec.eq_of_toNat_eq
  rw [fieldG_toNat, formatXNN_toNat]; omega

@[simp] theorem fieldX_formatXNN : fieldX (formatXNN g x kk) = x := by
  apply Fin.ext
  rw [fieldX_val, formatXNN_toNat]; omega

@[simp] theorem fieldNN_formatXNN : fieldNN (formatXNN g x kk) = kk := by
  apply BitVec.eq_of_toNat_eq
  rw [fieldNN_toNat, formatXNN_toNat]; omega

@[simp] theorem fieldG_formatXYN : fieldG (formatXYN g x y n) = g := by
  apply BitVec.eq_of_toNat_eq
  rw [fieldG_toNat, formatXYN_toNat]; omega

@[simp] theorem fieldX_formatXYN : fieldX (formatXYN g x y n) = x := by
  apply Fin.ext
  rw [fieldX_val, formatXYN_toNat]; omega

@[simp] theorem fieldY_formatXYN : fieldY (formatXYN g x y n) = y := by
  apply Fin.ext
  rw [fieldY_val, formatXYN_toNat]; omega

@[simp] theorem fieldN_formatXYN : fieldN (formatXYN g x y n) = n := by
  apply BitVec.eq_of_toNat_eq
  rw [fieldN_toNat, formatXYN_toNat]; omega
end

/-! ### A word from its fields -/

theorem word_eq_formatA (w : Word) : formatA (fieldG w) (fieldNNN w) = w := by
  apply BitVec.eq_of_toNat_eq
  rw [formatA_toNat, fieldG_toNat, fieldNNN_toNat]; omega

theorem word_eq_formatXNN (w : Word) : formatXNN (fieldG w) (fieldX w) (fieldNN w) = w := by
  apply BitVec.eq_of_toNat_eq
  rw [formatXNN_toNat, fieldG_toNat, fieldX_val, fieldNN_toNat]; omega

theorem word_eq_formatXYN (w : Word) :
    formatXYN (fieldG w) (fieldX w) (fieldY w) (fieldN w) = w := by
  apply BitVec.eq_of_toNat_eq
  rw [formatXYN_toNat, fieldG_toNat, fieldX_val, fieldY_val, fieldN_toNat]; omega

/-! ### Bytes of a word (20_memory.md R54) -/

theorem wordOfBytes_toNat (hi lo : Byte) :
    (wordOfBytes hi lo).toNat = 256 * hi.toNat + lo.toNat := by
  have h : (wordOfBytes hi lo).toNat = (hi ++ lo).toNat := rfl
  rw [h, BitVec.toNat_append, ← Nat.shiftLeft_add_eq_or_of_lt lo.isLt, Nat.shiftLeft_eq]
  omega

/-- A word's two bytes give the word back. -/
theorem wordBytes_wordOfBytes (w : Word) :
    ∃ hi lo, wordBytes w = [hi, lo] ∧ wordOfBytes hi lo = w := by
  refine ⟨_, _, rfl, BitVec.eq_of_toNat_eq ?_⟩
  have := w.isLt
  rw [wordOfBytes_toNat]
  simp only [BitVec.extractLsb'_toNat, Nat.shiftRight_eq_div_pow]
  omega

@[simp] theorem wordOfBytes_bytes (w : Word) :
    wordOfBytes (w.extractLsb' 8 8) (w.extractLsb' 0 8) = w := by
  obtain ⟨hi, lo, h, hw⟩ := wordBytes_wordOfBytes w
  simp only [wordBytes, List.cons.injEq, and_true] at h
  rw [h.1, h.2, hw]

/-- Decoding two bytes is decoding their word (30_encoding.md R72). -/
theorem decode_wordBytes (w : Word) (rest : List Byte) :
    decode (wordBytes w ++ rest) =
      match decodeWord w with
      | some i => .ok (i, rest)
      | none => .error (.unknownInstruction w) := by
  have h := wordOfBytes_bytes w
  unfold decode
  cases hd : decodeWord w <;> simp [wordBytes, h, hd]

end Sys2Proof
end

