-- ==== Sys2Proof/Laws/Display.lean ====
section
/-! SUPPORT. The laws of the display: what a pixel is after a toggle, a plot, a row and the rows of
a sprite (43_display.md R160, R161). -/

namespace Sys2Proof.Machine

theorem Display.pixel_toggle (d : Display) (x x' : Fin 64) (y y' : Fin 32) :
    (d.toggle x y).pixel x' y' =
      if x' = x ∧ y' = y then !d.pixel x y else d.pixel x' y' := by
  simp only [Display.pixel, Display.toggle, Vector.getElem_set, Fin.ext_iff]
  by_cases hy : y.val = y'.val
  · obtain rfl : y = y' := Fin.ext hy
    by_cases hx : x'.val = x.val
    · simp [hx]
    · simp [hx]
  · have : ¬ y'.val = y.val := fun h => hy h.symm
    simp [hy, this]

@[simp] theorem Display.pixel_clear (x : Fin 64) (y : Fin 32) :
    Display.clear.pixel x y = false := by
  simp [Display.pixel, Display.clear]

/-- Two displays are equal when every pixel is. -/
theorem Display.eq_of_pixel {d e : Display} (h : ∀ x y, d.pixel x y = e.pixel x y) : d = e := by
  refine Vector.ext fun k hk => BitVec.eq_of_getLsbD_eq fun j hj => ?_
  exact h ⟨j, hj⟩ ⟨k, hk⟩

theorem Drawing.plot_pixel (bit : Bool) (x x' : Fin 64) (y y' : Fin 32) (d : Drawing) :
    (d.plot bit x y).disp.pixel x' y' =
      xor (d.disp.pixel x' y') (bit && decide (x' = x ∧ y' = y)) := by
  unfold Drawing.plot
  cases bit
  · simp
  · by_cases h : x' = x ∧ y' = y
    · obtain ⟨rfl, rfl⟩ := h; simp [Display.pixel_toggle]
    · simp [Display.pixel_toggle, h]

theorem Drawing.plot_collided (bit : Bool) (x : Fin 64) (y : Fin 32) (d : Drawing) :
    (d.plot bit x y).collided = (d.collided || (bit && d.disp.pixel x y)) := by
  cases bit <;> simp [Drawing.plot]

/-! ### One sprite row -/

/-- Plotting bits at pairwise distinct places: each pixel is toggled once or not at all, and a
collision is a set pixel under a one bit before the first plot. -/
theorem Drawing.foldl_plot (bit : Nat → Bool) (at_ : Nat → Fin 64) (y : Fin 32) (l : List Nat)
    (hl : l.Pairwise fun i j => at_ i ≠ at_ j) (d : Drawing) :
    (∀ x' y', (l.foldl (fun d c => d.plot (bit c) (at_ c) y) d).disp.pixel x' y' =
      xor (d.disp.pixel x' y') (l.any fun c => bit c && decide (x' = at_ c ∧ y' = y))) ∧
    (l.foldl (fun d c => d.plot (bit c) (at_ c) y) d).collided =
      (d.collided || l.any fun c => bit c && d.disp.pixel (at_ c) y) := by
  induction l generalizing d with
  | nil => simp
  | cons c l ih =>
    have ⟨hc, hl'⟩ := List.pairwise_cons.1 hl
    have ⟨ihp, ihc⟩ := ih hl' (d.plot (bit c) (at_ c) y)
    refine ⟨fun x' y' => ?_, ?_⟩
    · rw [List.foldl_cons, ihp, Drawing.plot_pixel, List.any_cons, Bool.xor_assoc]
      congr 1
      by_cases h : x' = at_ c ∧ y' = y
      · have : (l.any fun k => bit k && decide (x' = at_ k ∧ y' = y)) = false := by
          rw [List.any_eq_false]
          intro k hk
          have := hc k hk
          simp only [Bool.and_eq_true, decide_eq_true_eq, not_and]
          intro _ h2
          exact absurd (h.1.symm.trans h2) this
        rw [this]; simp
      · simp [h]
    · rw [List.foldl_cons, ihc, Drawing.plot_collided, List.any_cons, Bool.or_assoc]
      congr 2
      rw [Bool.eq_iff_iff, List.any_eq_true, List.any_eq_true]
      refine exists_congr fun k => and_congr_right fun hk => ?_
      have hne : ¬ at_ k = at_ c := fun h => hc k hk h.symm
      simp [Drawing.plot_pixel, hne]

/-- The sprite row `b` at column origin `ox` has a one bit on column `x`. -/
def rowCovers (b : Byte) (ox : Nat) (x : Fin 64) : Bool :=
  (List.range 8).any fun col => b.getLsbD (7 - col) && decide (x = spriteColumn ox col)

theorem column_distinct (ox : Nat) :
    (List.range 8).Pairwise fun i j => spriteColumn ox i ≠ spriteColumn ox j := by
  refine (List.pairwise_lt_range (n := 8)).imp_of_mem fun {i j} hi hj hij h => ?_
  have hi := List.mem_range.1 hi
  have hj := List.mem_range.1 hj
  have := congrArg Fin.val h
  simp only [spriteColumn] at this
  omega

theorem Drawing.row_pixel (b : Byte) (ox : Nat) (y : Fin 32) (d : Drawing) (x' : Fin 64)
    (y' : Fin 32) : (d.row b ox y).disp.pixel x' y' =
      xor (d.disp.pixel x' y') (rowCovers b ox x' && decide (y' = y)) := by
  rw [Drawing.row, (Drawing.foldl_plot (fun col => b.getLsbD (7 - col))
    (fun col => spriteColumn ox col) y _ (column_distinct ox) d).1]
  congr 1
  by_cases h : y' = y <;> simp [rowCovers, h]

theorem Drawing.row_collided (b : Byte) (ox : Nat) (y : Fin 32) (d : Drawing) :
    (d.row b ox y).collided = true ↔
      d.collided = true ∨ ∃ x, rowCovers b ox x = true ∧ d.disp.pixel x y = true := by
  rw [Drawing.row, (Drawing.foldl_plot (fun col => b.getLsbD (7 - col))
    (fun col => spriteColumn ox col) y _ (column_distinct ox) d).2]
  simp only [Bool.or_eq_true, List.any_eq_true, Bool.and_eq_true, rowCovers, decide_eq_true_eq]
  refine or_congr_right ⟨?_, ?_⟩
  · rintro ⟨c, hc, hb, hp⟩; exact ⟨_, ⟨c, hc, hb, rfl⟩, hp⟩
  · rintro ⟨x, ⟨c, hc, hb, rfl⟩, hp⟩; exact ⟨c, hc, hb, hp⟩

/-! ### The rows of a sprite -/

/-- The sprite of rows `bs` at origin (ox, oy), from row offset `r` on, has a one bit on pixel
(x, y). -/
def Covers (bs : List Byte) (ox oy r : Nat) (x : Fin 64) (y : Fin 32) : Prop :=
  ∃ k, ∃ h : k < bs.length, rowCovers bs[k] ox x = true ∧ y = spriteRow oy (r + k)

theorem covers_cons (b : Byte) (bs : List Byte) (ox oy r : Nat) (x : Fin 64) (y : Fin 32) :
    Covers (b :: bs) ox oy r x y ↔
      (rowCovers b ox x = true ∧ y = spriteRow oy r) ∨ Covers bs ox oy (r + 1) x y := by
  constructor
  · rintro ⟨k, hk, hb, hy⟩
    cases k with
    | zero => exact .inl ⟨hb, hy⟩
    | succ k =>
      refine .inr ⟨k, by simpa using hk, hb, ?_⟩
      rw [hy]; congr 1; omega
  · rintro (⟨hb, hy⟩ | ⟨k, hk, hb, hy⟩)
    · exact ⟨0, by simp, hb, hy⟩
    · refine ⟨k + 1, by simpa using hk, hb, ?_⟩
      rw [hy]; congr 1; omega

/-- At most 32 rows: no row comes back to an earlier one's place (43_display.md R161). -/
theorem covers_later_rows (bs : List Byte) (ox oy r : Nat) (x : Fin 64)
    (h : bs.length < 32) : ¬ Covers bs ox oy (r + 1) x (spriteRow oy r) := by
  rintro ⟨k, hk, -, hy⟩
  have := congrArg Fin.val hy
  simp only [spriteRow] at this
  omega

/-- Every pixel after the rows: toggled where the sprite has a one bit, else as before; and there
was a collision where a one bit met a set pixel. -/
theorem Drawing.rows_spec (bs : List Byte) (ox oy r : Nat) (d : Drawing) (h : bs.length ≤ 32) :
    (∀ x y, (Covers bs ox oy r x y → (Drawing.rows ox oy r bs d).disp.pixel x y = !d.disp.pixel x y)
      ∧ (¬ Covers bs ox oy r x y →
          (Drawing.rows ox oy r bs d).disp.pixel x y = d.disp.pixel x y)) ∧
    ((Drawing.rows ox oy r bs d).collided = true ↔
      d.collided = true ∨ ∃ x y, Covers bs ox oy r x y ∧ d.disp.pixel x y = true) := by
  induction bs generalizing r d with
  | nil => simp [Drawing.rows, Covers]
  | cons b bs ih =>
    simp only [List.length_cons] at h
    have ⟨ihp, ihc⟩ := ih (r + 1) (d.row b ox (spriteRow oy r)) (by omega)
    have later := fun x => covers_later_rows bs ox oy r x (by omega)
    refine ⟨fun x y => ?_, ?_⟩
    · have ⟨ih1, ih2⟩ := ihp x y
      rw [covers_cons, Drawing.rows]
      by_cases hy : y = spriteRow oy r
      · subst hy
        have e := ih2 (later x)
        rw [Drawing.row_pixel] at e
        cases hb : rowCovers b ox x <;> simp [later x, e, hb]
      · have hrow : (d.row b ox (spriteRow oy r)).disp.pixel x y = d.disp.pixel x y := by
          simp [Drawing.row_pixel, hy]
        rw [hrow] at ih1 ih2
        simp only [hy, and_false, false_or]
        exact ⟨ih1, ih2⟩
    · rw [Drawing.rows, ihc, Drawing.row_collided, or_assoc]
      refine or_congr_right ⟨?_, ?_⟩
      · rintro (⟨x, hb, hp⟩ | ⟨x, y, hcov, hp⟩)
        · exact ⟨x, _, (covers_cons ..).2 (.inl ⟨hb, rfl⟩), hp⟩
        · have hy : y ≠ spriteRow oy r := fun e => later x (e ▸ hcov)
          rw [Drawing.row_pixel] at hp
          exact ⟨x, y, (covers_cons ..).2 (.inr hcov), by simpa [hy] using hp⟩
      · rintro ⟨x, y, hcov, hp⟩
        rcases (covers_cons ..).1 hcov with ⟨hb, rfl⟩ | hcov
        · exact .inl ⟨x, hb, hp⟩
        · have hy : y ≠ spriteRow oy r := fun e => later x (e ▸ hcov)
          exact .inr ⟨x, y, hcov, by simpa [Drawing.row_pixel, hy] using hp⟩

end Sys2Proof.Machine
end

