-- ==== Sys2Proof/Laws/Memory.lean ====
section
/-! SUPPORT. The laws of memory: what a read after a write gives, and that every write keeps the
canonical form. -/

namespace Sys2Proof.Machine

variable (font : Font)

/-! ### Read after write -/

theorem Memory.read_filter_ne (m : Memory) (a c : Nat) :
    Memory.read font (m.filter fun p => p.1 != a) c =
      if c = a then Memory.background font a else m.read font c := by
  induction m with
  | nil => by_cases h : c = a <;> simp [Memory.read, h]
  | cons p m ih =>
    by_cases hp : p.1 = a
    · have hf : (p :: m).filter (fun q => q.1 != a) = m.filter (fun q => q.1 != a) := by simp [hp]
      rw [hf, ih]
      by_cases hc : c = a
      · simp [hc]
      · have : a ≠ c := fun h => hc h.symm
        simp [hc, Memory.read, hp, this]
    · by_cases hc : c = a
      · subst hc; simp [hp, Memory.read, ih]
      · by_cases hpc : p.1 = c <;> simp [hp, hc, Memory.read, ih, hpc]

theorem Memory.read_insert (m : Memory) (a c : Nat) (b : Byte) (h : ∀ p ∈ m, p.1 ≠ a) :
    Memory.read font (m.insert a b) c = if c = a then b else m.read font c := by
  induction m with
  | nil => simp [Memory.insert, Memory.read, eq_comm]
  | cons p m ih =>
    have hp := h p (by simp)
    have ih := ih fun q hq => h q (by simp [hq])
    unfold Memory.insert
    split
    · simp [Memory.read, eq_comm]
    · by_cases hc : p.1 = c
      · have : c ≠ a := hc ▸ hp
        simp [Memory.read, hc, this]
      · simp [Memory.read, hc, ih]

/-- A read after a write: the byte written there, and every other byte as before. -/
theorem Memory.read_write (m : Memory) (a c : Nat) (b : Byte) :
    (m.write font a b).read font c = if c = a then b else m.read font c := by
  unfold Memory.write
  dsimp only
  split
  · next hb => rw [Memory.read_filter_ne, hb]
  · rw [Memory.read_insert _ _ _ _ _ (by simp), Memory.read_filter_ne]
    split <;> rfl

@[simp] theorem Memory.read_write_same (m : Memory) (a : Nat) (b : Byte) :
    (m.write font a b).read font a = b := by simp [Memory.read_write]

theorem Memory.read_write_other (m : Memory) (a c : Nat) (b : Byte) (h : c ≠ a) :
    (m.write font a b).read font c = m.read font c := by simp [Memory.read_write, h]

/-- A read after a block write: the block's byte inside it, and every other byte as before. -/
theorem Memory.read_writeBytes (bs : List Byte) (m : Memory) (a c : Nat) :
    (m.writeBytes font a bs).read font c =
      if a ≤ c ∧ c < a + bs.length then bs.getD (c - a) 0 else m.read font c := by
  induction bs generalizing m a with
  | nil => simp only [Memory.writeBytes, List.length_nil]; rw [if_neg (by omega)]
  | cons b bs ih =>
    rw [Memory.writeBytes, ih, Memory.read_write]
    simp only [List.length_cons]
    by_cases h1 : a + 1 ≤ c ∧ c < a + 1 + bs.length
    · obtain ⟨k, rfl⟩ : ∃ k, c = a + 1 + k := ⟨c - (a + 1), by omega⟩
      have e1 : a + 1 + k - (a + 1) = k := by omega
      have e2 : a + 1 + k - a = k + 1 := by omega
      rw [if_pos h1, if_pos (by omega), e1, e2, List.getD_cons_succ]
    · rw [if_neg h1]
      by_cases h2 : c = a
      · subst h2; simp
      · rw [if_neg h2, if_neg (by omega)]

/-! ### The same of a state -/

variable (s : State)

/-- A read after a store (20_memory.md R62): the stored byte inside the block, and every other byte as
before. -/
theorem State.storeBytes_readByte (a c : Nat) (bs : List Byte) :
    (s.storeBytes a bs).readByte c =
      if a ≤ c ∧ c < a + bs.length then bs.getD (c - a) 0 else s.readByte c :=
  Memory.read_writeBytes s.font bs s.mem a c

@[simp] theorem State.readBytes_length (n a : Nat) : (s.readBytes a n).length = n := by
  induction n generalizing a with
  | zero => rfl
  | succ n ih => simp [State.readBytes, ih]

theorem State.readBytes_getElem (n a k : Nat) (h : k < (s.readBytes a n).length) :
    (s.readBytes a n)[k] = s.readByte (a + k) := by
  induction n generalizing a k with
  | zero => simp at h
  | succ n ih =>
    cases k with
    | zero => rfl
    | succ k => simp only [State.readBytes, List.getElem_cons_succ, ih]; congr 1; omega

/-- Equal bytes give equal blocks. -/
theorem State.readBytes_congr (t : State) (n a : Nat)
    (h : ∀ k, k < n → s.readByte (a + k) = t.readByte (a + k)) : s.readBytes a n = t.readBytes a n :=
  List.ext_getElem (by simp) fun k h1 h2 => by
    simpa [State.readBytes_getElem] using h k (by simpa using h1)

/-! ### The canonical form -/

theorem Memory.mem_insert (m : Memory) (a : Nat) (b : Byte) (p : Host.Cell) :
    p ∈ m.insert a b ↔ p = (a, b) ∨ p ∈ m := by
  induction m with
  | nil => simp [Memory.insert]
  | cons q m ih =>
    unfold Memory.insert
    split
    · simp
    · simp only [List.mem_cons, ih]; tauto

theorem Memory.insert_rising (m : Memory) (a : Nat) (b : Byte) (h : ∀ p ∈ m, p.1 ≠ a)
    (hm : m.Pairwise fun c d => c.1 < d.1) : (m.insert a b).Pairwise fun c d => c.1 < d.1 := by
  induction m with
  | nil => simp [Memory.insert]
  | cons q m ih =>
    have hq := h q (by simp)
    have ⟨hlt, hm'⟩ := List.pairwise_cons.1 hm
    unfold Memory.insert
    split
    · next hlta =>
      refine List.pairwise_cons.2 ⟨?_, hm⟩
      intro p hp
      rcases List.mem_cons.1 hp with rfl | hp
      · exact hlta
      · exact Nat.lt_trans hlta (hlt p hp)
    · refine List.pairwise_cons.2 ⟨?_, ih (fun p hp => h p (by simp [hp])) hm'⟩
      intro p hp
      rcases (Memory.mem_insert m a b p).1 hp with rfl | hp
      · show q.1 < a; omega
      · exact hlt p hp

/-- A write below 0x1000 keeps the canonical form. -/
theorem Memory.write_wf (m : Memory) (a : Nat) (b : Byte) (hm : m.wf font) (ha : a < Config.memSize) :
    (m.write font a b).wf font := by
  have hr : Memory.wf font (m.filter fun p => p.1 != a) :=
    ⟨hm.1.filter _, fun c hc => hm.2 c (List.mem_filter.1 hc).1⟩
  unfold Memory.write
  simp only
  split
  · exact hr
  · next hb =>
    refine ⟨Memory.insert_rising _ _ _ (by simp) hr.1, fun c hc => ?_⟩
    rcases (Memory.mem_insert _ _ _ _).1 hc with rfl | hc
    · exact ⟨ha, hb⟩
    · exact hr.2 c hc

/-- A block write below 0x1000 keeps the canonical form. -/
theorem Memory.writeBytes_wf (bs : List Byte) (m : Memory) (a : Nat) (hm : m.wf font)
    (ha : a + bs.length ≤ Config.memSize) : (m.writeBytes font a bs).wf font := by
  induction bs generalizing m a with
  | nil => exact hm
  | cons b bs ih =>
    simp only [List.length_cons] at ha
    exact ih _ _ (Memory.write_wf font m a b hm (by omega)) (by omega)

theorem Memory.nil_wf : Memory.wf font [] := by simp [Memory.wf]

/-! ### Range checks -/

theorem accessInRange_iff (a n : Nat) : accessInRange a n = true ↔ n = 0 ∨ a + n - 1 ≤ 0xFFF := by
  simp [accessInRange]

theorem firstOffending_toNat (i : Word) : (firstOffending i).toNat = max i.toNat 0x1000 := by
  unfold firstOffending
  split <;> simp <;> omega

end Sys2Proof.Machine
end

