-- ==== Sys2Proof/Laws/State.lean ====
section
/-! SUPPORT. One lemma a field and a setter of `State`, and the register file read after a write. -/

namespace Sys2Proof.Machine

variable (s : State)

/-! `setV` -/

@[simp] theorem State.setV_v (v : Vector Byte 16) : (s.setV v).v = v := rfl
@[simp] theorem State.setV_pc (v : Vector Byte 16) : (s.setV v).pc = s.pc := rfl
@[simp] theorem State.setV_i (v : Vector Byte 16) : (s.setV v).i = s.i := rfl
@[simp] theorem State.setV_stack (v : Vector Byte 16) : (s.setV v).stack = s.stack := rfl
@[simp] theorem State.setV_sp (v : Vector Byte 16) : (s.setV v).sp = s.sp := rfl
@[simp] theorem State.setV_dt (v : Vector Byte 16) : (s.setV v).dt = s.dt := rfl
@[simp] theorem State.setV_st (v : Vector Byte 16) : (s.setV v).st = s.st := rfl
@[simp] theorem State.setV_mem (v : Vector Byte 16) : (s.setV v).mem = s.mem := rfl
@[simp] theorem State.setV_disp (v : Vector Byte 16) : (s.setV v).disp = s.disp := rfl
@[simp] theorem State.setV_key (v : Vector Byte 16) : (s.setV v).key = s.key := rfl
@[simp] theorem State.setV_fault (v : Vector Byte 16) : (s.setV v).fault = s.fault := rfl
@[simp] theorem State.setV_draws (v : Vector Byte 16) : (s.setV v).draws = s.draws := rfl
@[simp] theorem State.setV_font (v : Vector Byte 16) : (s.setV v).font = s.font := rfl
@[simp] theorem State.setV_readByte (v : Vector Byte 16) (a : Nat) : (s.setV v).readByte a = s.readByte a := rfl
@[simp] theorem State.setV_pressed (v : Vector Byte 16) (k' : Fin 16) : (s.setV v).pressed k' = s.pressed k' := rfl

/-! `setPc` -/

@[simp] theorem State.setPc_v (a : Word) : (s.setPc a).v = s.v := rfl
@[simp] theorem State.setPc_pc (a : Word) : (s.setPc a).pc = a := rfl
@[simp] theorem State.setPc_i (a : Word) : (s.setPc a).i = s.i := rfl
@[simp] theorem State.setPc_stack (a : Word) : (s.setPc a).stack = s.stack := rfl
@[simp] theorem State.setPc_sp (a : Word) : (s.setPc a).sp = s.sp := rfl
@[simp] theorem State.setPc_dt (a : Word) : (s.setPc a).dt = s.dt := rfl
@[simp] theorem State.setPc_st (a : Word) : (s.setPc a).st = s.st := rfl
@[simp] theorem State.setPc_mem (a : Word) : (s.setPc a).mem = s.mem := rfl
@[simp] theorem State.setPc_disp (a : Word) : (s.setPc a).disp = s.disp := rfl
@[simp] theorem State.setPc_key (a : Word) : (s.setPc a).key = s.key := rfl
@[simp] theorem State.setPc_fault (a : Word) : (s.setPc a).fault = s.fault := rfl
@[simp] theorem State.setPc_draws (a : Word) : (s.setPc a).draws = s.draws := rfl
@[simp] theorem State.setPc_font (a : Word) : (s.setPc a).font = s.font := rfl
@[simp] theorem State.setPc_readByte (w : Word) (a : Nat) : (s.setPc w).readByte a = s.readByte a := rfl
@[simp] theorem State.setPc_reg (a : Word) (r : Reg) : (s.setPc a).reg r = s.reg r := rfl
@[simp] theorem State.setPc_pressed (a : Word) (k' : Fin 16) : (s.setPc a).pressed k' = s.pressed k' := rfl

/-! `setI` -/

@[simp] theorem State.setI_v (a : Word) : (s.setI a).v = s.v := rfl
@[simp] theorem State.setI_pc (a : Word) : (s.setI a).pc = s.pc := rfl
@[simp] theorem State.setI_i (a : Word) : (s.setI a).i = a := rfl
@[simp] theorem State.setI_stack (a : Word) : (s.setI a).stack = s.stack := rfl
@[simp] theorem State.setI_sp (a : Word) : (s.setI a).sp = s.sp := rfl
@[simp] theorem State.setI_dt (a : Word) : (s.setI a).dt = s.dt := rfl
@[simp] theorem State.setI_st (a : Word) : (s.setI a).st = s.st := rfl
@[simp] theorem State.setI_mem (a : Word) : (s.setI a).mem = s.mem := rfl
@[simp] theorem State.setI_disp (a : Word) : (s.setI a).disp = s.disp := rfl
@[simp] theorem State.setI_key (a : Word) : (s.setI a).key = s.key := rfl
@[simp] theorem State.setI_fault (a : Word) : (s.setI a).fault = s.fault := rfl
@[simp] theorem State.setI_draws (a : Word) : (s.setI a).draws = s.draws := rfl
@[simp] theorem State.setI_font (a : Word) : (s.setI a).font = s.font := rfl
@[simp] theorem State.setI_readByte (w : Word) (a : Nat) : (s.setI w).readByte a = s.readByte a := rfl
@[simp] theorem State.setI_reg (a : Word) (r : Reg) : (s.setI a).reg r = s.reg r := rfl
@[simp] theorem State.setI_pressed (a : Word) (k' : Fin 16) : (s.setI a).pressed k' = s.pressed k' := rfl

/-! `setCalls` -/

@[simp] theorem State.setCalls_v (k : Vector Word 16) (n : Fin 17) : (s.setCalls k n).v = s.v := rfl
@[simp] theorem State.setCalls_pc (k : Vector Word 16) (n : Fin 17) : (s.setCalls k n).pc = s.pc := rfl
@[simp] theorem State.setCalls_i (k : Vector Word 16) (n : Fin 17) : (s.setCalls k n).i = s.i := rfl
@[simp] theorem State.setCalls_stack (k : Vector Word 16) (n : Fin 17) : (s.setCalls k n).stack = k := rfl
@[simp] theorem State.setCalls_sp (k : Vector Word 16) (n : Fin 17) : (s.setCalls k n).sp = n := rfl
@[simp] theorem State.setCalls_dt (k : Vector Word 16) (n : Fin 17) : (s.setCalls k n).dt = s.dt := rfl
@[simp] theorem State.setCalls_st (k : Vector Word 16) (n : Fin 17) : (s.setCalls k n).st = s.st := rfl
@[simp] theorem State.setCalls_mem (k : Vector Word 16) (n : Fin 17) : (s.setCalls k n).mem = s.mem := rfl
@[simp] theorem State.setCalls_disp (k : Vector Word 16) (n : Fin 17) : (s.setCalls k n).disp = s.disp := rfl
@[simp] theorem State.setCalls_key (k : Vector Word 16) (n : Fin 17) : (s.setCalls k n).key = s.key := rfl
@[simp] theorem State.setCalls_fault (k : Vector Word 16) (n : Fin 17) : (s.setCalls k n).fault = s.fault := rfl
@[simp] theorem State.setCalls_draws (k : Vector Word 16) (n : Fin 17) : (s.setCalls k n).draws = s.draws := rfl
@[simp] theorem State.setCalls_font (k : Vector Word 16) (n : Fin 17) : (s.setCalls k n).font = s.font := rfl
@[simp] theorem State.setCalls_readByte (k : Vector Word 16) (n : Fin 17) (a : Nat) : (s.setCalls k n).readByte a = s.readByte a := rfl
@[simp] theorem State.setCalls_reg (k : Vector Word 16) (n : Fin 17) (r : Reg) : (s.setCalls k n).reg r = s.reg r := rfl
@[simp] theorem State.setCalls_pressed (k : Vector Word 16) (n : Fin 17) (k' : Fin 16) : (s.setCalls k n).pressed k' = s.pressed k' := rfl

/-! `setDt` -/

@[simp] theorem State.setDt_v (b : Byte) : (s.setDt b).v = s.v := rfl
@[simp] theorem State.setDt_pc (b : Byte) : (s.setDt b).pc = s.pc := rfl
@[simp] theorem State.setDt_i (b : Byte) : (s.setDt b).i = s.i := rfl
@[simp] theorem State.setDt_stack (b : Byte) : (s.setDt b).stack = s.stack := rfl
@[simp] theorem State.setDt_sp (b : Byte) : (s.setDt b).sp = s.sp := rfl
@[simp] theorem State.setDt_dt (b : Byte) : (s.setDt b).dt = b := rfl
@[simp] theorem State.setDt_st (b : Byte) : (s.setDt b).st = s.st := rfl
@[simp] theorem State.setDt_mem (b : Byte) : (s.setDt b).mem = s.mem := rfl
@[simp] theorem State.setDt_disp (b : Byte) : (s.setDt b).disp = s.disp := rfl
@[simp] theorem State.setDt_key (b : Byte) : (s.setDt b).key = s.key := rfl
@[simp] theorem State.setDt_fault (b : Byte) : (s.setDt b).fault = s.fault := rfl
@[simp] theorem State.setDt_draws (b : Byte) : (s.setDt b).draws = s.draws := rfl
@[simp] theorem State.setDt_font (b : Byte) : (s.setDt b).font = s.font := rfl
@[simp] theorem State.setDt_readByte (b : Byte) (a : Nat) : (s.setDt b).readByte a = s.readByte a := rfl
@[simp] theorem State.setDt_reg (b : Byte) (r : Reg) : (s.setDt b).reg r = s.reg r := rfl
@[simp] theorem State.setDt_pressed (b : Byte) (k' : Fin 16) : (s.setDt b).pressed k' = s.pressed k' := rfl

/-! `setSt` -/

@[simp] theorem State.setSt_v (b : Byte) : (s.setSt b).v = s.v := rfl
@[simp] theorem State.setSt_pc (b : Byte) : (s.setSt b).pc = s.pc := rfl
@[simp] theorem State.setSt_i (b : Byte) : (s.setSt b).i = s.i := rfl
@[simp] theorem State.setSt_stack (b : Byte) : (s.setSt b).stack = s.stack := rfl
@[simp] theorem State.setSt_sp (b : Byte) : (s.setSt b).sp = s.sp := rfl
@[simp] theorem State.setSt_dt (b : Byte) : (s.setSt b).dt = s.dt := rfl
@[simp] theorem State.setSt_st (b : Byte) : (s.setSt b).st = b := rfl
@[simp] theorem State.setSt_mem (b : Byte) : (s.setSt b).mem = s.mem := rfl
@[simp] theorem State.setSt_disp (b : Byte) : (s.setSt b).disp = s.disp := rfl
@[simp] theorem State.setSt_key (b : Byte) : (s.setSt b).key = s.key := rfl
@[simp] theorem State.setSt_fault (b : Byte) : (s.setSt b).fault = s.fault := rfl
@[simp] theorem State.setSt_draws (b : Byte) : (s.setSt b).draws = s.draws := rfl
@[simp] theorem State.setSt_font (b : Byte) : (s.setSt b).font = s.font := rfl
@[simp] theorem State.setSt_readByte (b : Byte) (a : Nat) : (s.setSt b).readByte a = s.readByte a := rfl
@[simp] theorem State.setSt_reg (b : Byte) (r : Reg) : (s.setSt b).reg r = s.reg r := rfl
@[simp] theorem State.setSt_pressed (b : Byte) (k' : Fin 16) : (s.setSt b).pressed k' = s.pressed k' := rfl

/-! `setMem` -/

@[simp] theorem State.setMem_v (m : Memory) : (s.setMem m).v = s.v := rfl
@[simp] theorem State.setMem_pc (m : Memory) : (s.setMem m).pc = s.pc := rfl
@[simp] theorem State.setMem_i (m : Memory) : (s.setMem m).i = s.i := rfl
@[simp] theorem State.setMem_stack (m : Memory) : (s.setMem m).stack = s.stack := rfl
@[simp] theorem State.setMem_sp (m : Memory) : (s.setMem m).sp = s.sp := rfl
@[simp] theorem State.setMem_dt (m : Memory) : (s.setMem m).dt = s.dt := rfl
@[simp] theorem State.setMem_st (m : Memory) : (s.setMem m).st = s.st := rfl
@[simp] theorem State.setMem_mem (m : Memory) : (s.setMem m).mem = m := rfl
@[simp] theorem State.setMem_disp (m : Memory) : (s.setMem m).disp = s.disp := rfl
@[simp] theorem State.setMem_key (m : Memory) : (s.setMem m).key = s.key := rfl
@[simp] theorem State.setMem_fault (m : Memory) : (s.setMem m).fault = s.fault := rfl
@[simp] theorem State.setMem_draws (m : Memory) : (s.setMem m).draws = s.draws := rfl
@[simp] theorem State.setMem_font (m : Memory) : (s.setMem m).font = s.font := rfl
@[simp] theorem State.setMem_readByte (m : Memory) (a : Nat) : (s.setMem m).readByte a = m.read s.font a := rfl
@[simp] theorem State.setMem_reg (m : Memory) (r : Reg) : (s.setMem m).reg r = s.reg r := rfl
@[simp] theorem State.setMem_pressed (m : Memory) (k' : Fin 16) : (s.setMem m).pressed k' = s.pressed k' := rfl

/-! `setDisp` -/

@[simp] theorem State.setDisp_v (d : Display) : (s.setDisp d).v = s.v := rfl
@[simp] theorem State.setDisp_pc (d : Display) : (s.setDisp d).pc = s.pc := rfl
@[simp] theorem State.setDisp_i (d : Display) : (s.setDisp d).i = s.i := rfl
@[simp] theorem State.setDisp_stack (d : Display) : (s.setDisp d).stack = s.stack := rfl
@[simp] theorem State.setDisp_sp (d : Display) : (s.setDisp d).sp = s.sp := rfl
@[simp] theorem State.setDisp_dt (d : Display) : (s.setDisp d).dt = s.dt := rfl
@[simp] theorem State.setDisp_st (d : Display) : (s.setDisp d).st = s.st := rfl
@[simp] theorem State.setDisp_mem (d : Display) : (s.setDisp d).mem = s.mem := rfl
@[simp] theorem State.setDisp_disp (d : Display) : (s.setDisp d).disp = d := rfl
@[simp] theorem State.setDisp_key (d : Display) : (s.setDisp d).key = s.key := rfl
@[simp] theorem State.setDisp_fault (d : Display) : (s.setDisp d).fault = s.fault := rfl
@[simp] theorem State.setDisp_draws (d : Display) : (s.setDisp d).draws = s.draws := rfl
@[simp] theorem State.setDisp_font (d : Display) : (s.setDisp d).font = s.font := rfl
@[simp] theorem State.setDisp_readByte (d : Display) (a : Nat) : (s.setDisp d).readByte a = s.readByte a := rfl
@[simp] theorem State.setDisp_reg (d : Display) (r : Reg) : (s.setDisp d).reg r = s.reg r := rfl
@[simp] theorem State.setDisp_pressed (d : Display) (k' : Fin 16) : (s.setDisp d).pressed k' = s.pressed k' := rfl

/-! `setKeys` -/

@[simp] theorem State.setKeys_v (k : Vector Bool 16) : (s.setKeys k).v = s.v := rfl
@[simp] theorem State.setKeys_pc (k : Vector Bool 16) : (s.setKeys k).pc = s.pc := rfl
@[simp] theorem State.setKeys_i (k : Vector Bool 16) : (s.setKeys k).i = s.i := rfl
@[simp] theorem State.setKeys_stack (k : Vector Bool 16) : (s.setKeys k).stack = s.stack := rfl
@[simp] theorem State.setKeys_sp (k : Vector Bool 16) : (s.setKeys k).sp = s.sp := rfl
@[simp] theorem State.setKeys_dt (k : Vector Bool 16) : (s.setKeys k).dt = s.dt := rfl
@[simp] theorem State.setKeys_st (k : Vector Bool 16) : (s.setKeys k).st = s.st := rfl
@[simp] theorem State.setKeys_mem (k : Vector Bool 16) : (s.setKeys k).mem = s.mem := rfl
@[simp] theorem State.setKeys_disp (k : Vector Bool 16) : (s.setKeys k).disp = s.disp := rfl
@[simp] theorem State.setKeys_key (k : Vector Bool 16) : (s.setKeys k).key = k := rfl
@[simp] theorem State.setKeys_fault (k : Vector Bool 16) : (s.setKeys k).fault = s.fault := rfl
@[simp] theorem State.setKeys_draws (k : Vector Bool 16) : (s.setKeys k).draws = s.draws := rfl
@[simp] theorem State.setKeys_font (k : Vector Bool 16) : (s.setKeys k).font = s.font := rfl
@[simp] theorem State.setKeys_readByte (k : Vector Bool 16) (a : Nat) : (s.setKeys k).readByte a = s.readByte a := rfl
@[simp] theorem State.setKeys_reg (k : Vector Bool 16) (r : Reg) : (s.setKeys k).reg r = s.reg r := rfl

/-! `setFault` -/

@[simp] theorem State.setFault_v (f : FaultStatus) : (s.setFault f).v = s.v := rfl
@[simp] theorem State.setFault_pc (f : FaultStatus) : (s.setFault f).pc = s.pc := rfl
@[simp] theorem State.setFault_i (f : FaultStatus) : (s.setFault f).i = s.i := rfl
@[simp] theorem State.setFault_stack (f : FaultStatus) : (s.setFault f).stack = s.stack := rfl
@[simp] theorem State.setFault_sp (f : FaultStatus) : (s.setFault f).sp = s.sp := rfl
@[simp] theorem State.setFault_dt (f : FaultStatus) : (s.setFault f).dt = s.dt := rfl
@[simp] theorem State.setFault_st (f : FaultStatus) : (s.setFault f).st = s.st := rfl
@[simp] theorem State.setFault_mem (f : FaultStatus) : (s.setFault f).mem = s.mem := rfl
@[simp] theorem State.setFault_disp (f : FaultStatus) : (s.setFault f).disp = s.disp := rfl
@[simp] theorem State.setFault_key (f : FaultStatus) : (s.setFault f).key = s.key := rfl
@[simp] theorem State.setFault_fault (f : FaultStatus) : (s.setFault f).fault = f := rfl
@[simp] theorem State.setFault_draws (f : FaultStatus) : (s.setFault f).draws = s.draws := rfl
@[simp] theorem State.setFault_font (f : FaultStatus) : (s.setFault f).font = s.font := rfl
@[simp] theorem State.setFault_readByte (f : FaultStatus) (a : Nat) : (s.setFault f).readByte a = s.readByte a := rfl
@[simp] theorem State.setFault_reg (f : FaultStatus) (r : Reg) : (s.setFault f).reg r = s.reg r := rfl
@[simp] theorem State.setFault_pressed (f : FaultStatus) (k' : Fin 16) : (s.setFault f).pressed k' = s.pressed k' := rfl

/-! `setDraws` -/

@[simp] theorem State.setDraws_v (n : Nat) : (s.setDraws n).v = s.v := rfl
@[simp] theorem State.setDraws_pc (n : Nat) : (s.setDraws n).pc = s.pc := rfl
@[simp] theorem State.setDraws_i (n : Nat) : (s.setDraws n).i = s.i := rfl
@[simp] theorem State.setDraws_stack (n : Nat) : (s.setDraws n).stack = s.stack := rfl
@[simp] theorem State.setDraws_sp (n : Nat) : (s.setDraws n).sp = s.sp := rfl
@[simp] theorem State.setDraws_dt (n : Nat) : (s.setDraws n).dt = s.dt := rfl
@[simp] theorem State.setDraws_st (n : Nat) : (s.setDraws n).st = s.st := rfl
@[simp] theorem State.setDraws_mem (n : Nat) : (s.setDraws n).mem = s.mem := rfl
@[simp] theorem State.setDraws_disp (n : Nat) : (s.setDraws n).disp = s.disp := rfl
@[simp] theorem State.setDraws_key (n : Nat) : (s.setDraws n).key = s.key := rfl
@[simp] theorem State.setDraws_fault (n : Nat) : (s.setDraws n).fault = s.fault := rfl
@[simp] theorem State.setDraws_draws (n : Nat) : (s.setDraws n).draws = n := rfl
@[simp] theorem State.setDraws_font (n : Nat) : (s.setDraws n).font = s.font := rfl
@[simp] theorem State.setDraws_readByte (n : Nat) (a : Nat) : (s.setDraws n).readByte a = s.readByte a := rfl
@[simp] theorem State.setDraws_reg (n : Nat) (r : Reg) : (s.setDraws n).reg r = s.reg r := rfl
@[simp] theorem State.setDraws_pressed (n : Nat) (k' : Fin 16) : (s.setDraws n).pressed k' = s.pressed k' := rfl

/-! `setReg` -/

@[simp] theorem State.setReg_v (x : Reg) (b : Byte) : (s.setReg x b).v = s.v.set x.val b := rfl
@[simp] theorem State.setReg_pc (x : Reg) (b : Byte) : (s.setReg x b).pc = s.pc := rfl
@[simp] theorem State.setReg_i (x : Reg) (b : Byte) : (s.setReg x b).i = s.i := rfl
@[simp] theorem State.setReg_stack (x : Reg) (b : Byte) : (s.setReg x b).stack = s.stack := rfl
@[simp] theorem State.setReg_sp (x : Reg) (b : Byte) : (s.setReg x b).sp = s.sp := rfl
@[simp] theorem State.setReg_dt (x : Reg) (b : Byte) : (s.setReg x b).dt = s.dt := rfl
@[simp] theorem State.setReg_st (x : Reg) (b : Byte) : (s.setReg x b).st = s.st := rfl
@[simp] theorem State.setReg_mem (x : Reg) (b : Byte) : (s.setReg x b).mem = s.mem := rfl
@[simp] theorem State.setReg_disp (x : Reg) (b : Byte) : (s.setReg x b).disp = s.disp := rfl
@[simp] theorem State.setReg_key (x : Reg) (b : Byte) : (s.setReg x b).key = s.key := rfl
@[simp] theorem State.setReg_fault (x : Reg) (b : Byte) : (s.setReg x b).fault = s.fault := rfl
@[simp] theorem State.setReg_draws (x : Reg) (b : Byte) : (s.setReg x b).draws = s.draws := rfl
@[simp] theorem State.setReg_font (x : Reg) (b : Byte) : (s.setReg x b).font = s.font := rfl
@[simp] theorem State.setReg_readByte (x : Reg) (b : Byte) (a : Nat) : (s.setReg x b).readByte a = s.readByte a := rfl
@[simp] theorem State.setReg_pressed (x : Reg) (b : Byte) (k' : Fin 16) : (s.setReg x b).pressed k' = s.pressed k' := rfl

/-! `storeBytes`: a store changes memory only -/

@[simp] theorem State.storeBytes_v (a : Nat) (bs : List Byte) : (s.storeBytes a bs).v = s.v := rfl
@[simp] theorem State.storeBytes_pc (a : Nat) (bs : List Byte) : (s.storeBytes a bs).pc = s.pc := rfl
@[simp] theorem State.storeBytes_i (a : Nat) (bs : List Byte) : (s.storeBytes a bs).i = s.i := rfl
@[simp] theorem State.storeBytes_stack (a : Nat) (bs : List Byte) : (s.storeBytes a bs).stack = s.stack := rfl
@[simp] theorem State.storeBytes_sp (a : Nat) (bs : List Byte) : (s.storeBytes a bs).sp = s.sp := rfl
@[simp] theorem State.storeBytes_dt (a : Nat) (bs : List Byte) : (s.storeBytes a bs).dt = s.dt := rfl
@[simp] theorem State.storeBytes_st (a : Nat) (bs : List Byte) : (s.storeBytes a bs).st = s.st := rfl
@[simp] theorem State.storeBytes_disp (a : Nat) (bs : List Byte) : (s.storeBytes a bs).disp = s.disp := rfl
@[simp] theorem State.storeBytes_key (a : Nat) (bs : List Byte) : (s.storeBytes a bs).key = s.key := rfl
@[simp] theorem State.storeBytes_fault (a : Nat) (bs : List Byte) : (s.storeBytes a bs).fault = s.fault := rfl
@[simp] theorem State.storeBytes_font (a : Nat) (bs : List Byte) : (s.storeBytes a bs).font = s.font := rfl
@[simp] theorem State.storeBytes_draws (a : Nat) (bs : List Byte) : (s.storeBytes a bs).draws = s.draws := rfl
@[simp] theorem State.storeBytes_mem (a : Nat) (bs : List Byte) :
    (s.storeBytes a bs).mem = s.mem.writeBytes s.font a bs := rfl
@[simp] theorem State.storeBytes_reg (a : Nat) (bs : List Byte) (r : Reg) : (s.storeBytes a bs).reg r = s.reg r := rfl
@[simp] theorem State.storeBytes_pressed (a : Nat) (bs : List Byte) (k' : Fin 16) : (s.storeBytes a bs).pressed k' = s.pressed k' := rfl

/-! The register file (00_scope.md R12) -/

theorem State.setReg_reg (x r : Reg) (b : Byte) :
    (s.setReg x b).reg r = if r = x then b else s.reg r := by
  simp only [State.reg, State.setReg, Vector.getElem_set, Fin.ext_iff, eq_comm]

@[simp] theorem State.setReg_reg_same (x : Reg) (b : Byte) : (s.setReg x b).reg x = b := by
  simp [State.setReg_reg]

theorem State.setReg_reg_other (x r : Reg) (b : Byte) (h : r ≠ x) :
    (s.setReg x b).reg r = s.reg r := by
  simp [State.setReg_reg, h]

/-- The result of a flag-setting instruction, read back: VF holds the flag whatever x is
(41_register_arithmetic.md R133). -/
theorem State.setResultThenFlag_reg (x r : Reg) (b : Byte) (c : Bool) :
    (s.setResultThenFlag x b c).reg r =
      if r = flagReg then flagByte c else if r = x then b else s.reg r := by
  simp only [State.setResultThenFlag, State.setFlag, State.setReg_reg]

theorem flagByte_toNat (c : Bool) : (flagByte c).toNat = if c then 1 else 0 := by
  cases c <;> rfl

/-- Two states are equal when every field is. -/
theorem State.eq_of_fields {s t : State} (hv : s.v = t.v) (hpc : s.pc = t.pc) (hi : s.i = t.i)
    (hk : s.stack = t.stack) (hsp : s.sp = t.sp) (hdt : s.dt = t.dt) (hst : s.st = t.st)
    (hm : s.mem = t.mem) (hd : s.disp = t.disp) (hkey : s.key = t.key) (hf : s.fault = t.fault)
    (ho : s.font = t.font) (hn : s.draws = t.draws) : s = t := by
  cases s; cases t; simp_all

/-- The register files are equal when every register is. -/
theorem State.v_eq_of_reg {s t : State} (h : ∀ r : Reg, s.reg r = t.reg r) : s.v = t.v :=
  Vector.ext fun k hk => h ⟨k, hk⟩

/-- Taking a fault, field by field (60_exceptions.md R204). -/
theorem State.faultAt_eq (c : Fault) (a w d : Word) :
    s.faultAt c a w d = (s.setPc a).setFault (.halted c a w d) := rfl

@[simp] theorem State.faultAt_fault (c : Fault) (a w d : Word) :
    (s.faultAt c a w d).fault = .halted c a w d := rfl

@[simp] theorem State.faultAt_pc (c : Fault) (a w d : Word) : (s.faultAt c a w d).pc = a := rfl

@[simp] theorem State.advance_pc : s.advance.pc = s.pc + 2#16 := rfl

@[simp] theorem State.rewind_pc : s.rewind.pc = s.pc - 2#16 := rfl

end Sys2Proof.Machine
end

