-- ==== Sys2Proof/Laws/Step.lean ====
section
/-! SUPPORT. What each shared operation and one STEP can do, said once. -/

namespace Sys2Proof.Machine

variable {s t : State}

/-! ### The call stack -/

/-- A push that succeeds: fewer than 16 entries were in use, and the new one is the newest. -/
theorem State.push_some {a : Word} (h : s.push a = some t) :
    ∃ hs : s.sp.val < 16,
      t = s.setCalls (s.stack.set s.sp.val a) ⟨s.sp.val + 1, by omega⟩ := by
  unfold State.push at h
  split at h
  · next hs => exact ⟨hs, by simpa using h.symm⟩
  · cases h

theorem State.push_none {a : Word} : s.push a = none ↔ s.sp.val = 16 := by
  unfold State.push
  have := s.sp.isLt
  split <;> simp <;> omega

/-- A pop that succeeds: an entry was in use, and the newest one is answered and kept. -/
theorem State.pop_some {a : Word} (h : s.pop = some (a, t)) :
    ∃ hs : 0 < s.sp.val,
      a = s.stack[s.sp.val - 1] ∧ t = s.setCalls s.stack ⟨s.sp.val - 1, by omega⟩ := by
  unfold State.pop at h
  split at h
  · next hs =>
    simp only [Option.some.injEq, Prod.mk.injEq] at h
    exact ⟨hs, h.1.symm, h.2.symm⟩
  · cases h

theorem State.pop_none : s.pop = none ↔ s.sp.val = 0 := by
  unfold State.pop
  split <;> simp <;> omega

/-! ### Faults and range checks -/

theorem State.raise_eq (c : Fault) (i : Instr) (d : Word) (s : State) :
    s.raise c i d = (s.setPc (s.pc - 2#16)).setFault (.halted c (s.pc - 2#16) (encode i) d) := rfl

/-- A data access goes on when its whole range is in memory, and raises otherwise
(20_memory.md R53). -/
theorem State.dataAccess_inRange (i : Instr) (n : Nat) (s goOn : State)
    (h : n = 0 ∨ s.i.toNat + n - 1 ≤ 0xFFF) : s.dataAccess i n goOn = goOn := by
  rw [State.dataAccess, if_pos ((accessInRange_iff _ _).2 h)]

theorem State.dataAccess_outOfRange (i : Instr) (n : Nat) (s goOn : State)
    (h : 0 < n ∧ 0xFFF < s.i.toNat + n - 1) :
    s.dataAccess i n goOn = s.raise .dataAddressOutOfRange i (firstOffending s.i) := by
  rw [State.dataAccess, if_neg]
  rw [accessInRange_iff]
  omega

/-! ### Registers as a block -/

theorem State.regsUpTo_length (x : Reg) (s : State) : (s.regsUpTo x).length = x.val + 1 := by
  simp [State.regsUpTo]

theorem State.regsUpTo_getD (x : Reg) (s : State) (k : Nat) (hk : k ≤ x.val) :
    (s.regsUpTo x).getD k 0 = s.reg ⟨k, by omega⟩ := by
  have h : k < 16 := by omega
  simp [State.regsUpTo, State.reg, List.getD, show k < x.val + 1 by omega]

theorem State.loadUpTo_reg (x r : Reg) (s : State) :
    (s.loadUpTo x).reg r =
      if r ≤ x then s.readByte (s.i.toNat + r.val) else s.reg r := by
  simp [State.loadUpTo, State.reg, State.setV]

/-- A block load changes registers only. -/
theorem State.loadUpTo_eq_setV (x : Reg) (s : State) : ∃ v, s.loadUpTo x = s.setV v := ⟨_, rfl⟩

/-! ### Keys -/

/-- The lowest pressed key, or none pressed (44_input_timers.md R173). -/
theorem State.firstPressed_some {k : Fin 16} (h : s.firstPressed = some k) :
    s.pressed k = true ∧ ∀ j, j < k → s.pressed j = false := by
  have ⟨hp, as, bs, he, hall⟩ := List.find?_eq_some_iff_append.1 h
  refine ⟨hp, fun j hj => ?_⟩
  have hmem : j ∈ as := by
    have hsorted : (as ++ k :: bs).Pairwise (· < ·) := he ▸ List.pairwise_lt_finRange 16
    have hj' : j ∈ as ++ k :: bs := he ▸ List.mem_finRange j
    rcases List.mem_append.1 hj' with hj' | hj'
    · exact hj'
    · have hk := (List.pairwise_append.1 hsorted).2.1
      rcases List.mem_cons.1 hj' with rfl | hj'
      · exact absurd hj (lt_irrefl _)
      · exact absurd hj (lt_asymm ((List.pairwise_cons.1 hk).1 j hj'))
  simpa using hall j hmem

theorem State.firstPressed_none : s.firstPressed = none ↔ ∀ k, s.pressed k = false := by
  simp [State.firstPressed]

/-! ### The cycle -/

theorem State.fetch_word (h : s.pc.toNat ≤ 0xFFE) :
    s.fetch = some (s.readWord s.pc.toNat) := if_pos h

theorem State.readWord_toNat (s : State) (a : Nat) :
    (s.readWord a).toNat = 256 * (s.readByte a).toNat + (s.readByte (a + 1)).toNat :=
  wordOfBytes_toNat _ _

/-- The fetched word as a number. -/
theorem State.readWord_pc (s : State) : (s.readWord s.pc.toNat).toNat = s.wordAtPc :=
  s.readWord_toNat _

/-- Everything one STEP can do: nothing while halted; a failed fetch; an unknown word; or the
decoded instruction, with pc advanced (30_encoding.md R70). -/
theorem step_cases (s : State) :
    (s.fault ≠ .none ∧ step s = .next s) ∨
    (s.fault = .none ∧ 0xFFE < s.pc.toNat ∧
      step s = .next (s.faultAt .fetchAddressOutOfRange s.pc 0#16 0#16)) ∨
    (s.fault = .none ∧ s.pc.toNat ≤ 0xFFE ∧ decodeWord (s.readWord s.pc.toNat) = none ∧
      step s = .next (s.faultAt .unknownInstruction s.pc (s.readWord s.pc.toNat) 0#16)) ∨
    (s.fault = .none ∧ s.pc.toNat ≤ 0xFFE ∧
      ∃ i, decodeWord (s.readWord s.pc.toNat) = some i ∧ step s = exec i s.advance) := by
  unfold step cycle
  cases hf : s.fault with
  | halted => simp
  | none =>
    by_cases hp : s.pc.toNat ≤ 0xFFE
    · rw [State.fetch_word hp]
      cases hd : decodeWord (s.readWord s.pc.toNat) with
      | none => simp [hp, hd]
      | some i => simp [hp, hd]
    · simp [State.fetch, hp]
      omega

end Sys2Proof.Machine
end

