-- ==== Sys2Proof/Laws/HostOps.lean ====
section
/-! SUPPORT. What each host operation does, said once, and the induction over runs. -/

namespace Sys2Proof.Machine

variable (s : State)

theorem imageFits_iff (image : List Byte) : imageFits image = true ↔ image.length ≤ 3584 := by
  rw [imageFits, decide_eq_true_iff]; exact Iff.rfl

/-- LOAD of an image that fits writes it at 0x200 on (45_public_accessors.md R191). -/
theorem State.load_fits (image : List Byte) (h : image.length ≤ 3584) :
    s.load image = s.storeBytes 0x200 image := by
  rw [State.load, if_pos ((imageFits_iff image).2 h)]; rfl

/-- LOAD of an image that does not fit changes nothing (R191). -/
theorem State.load_rejects (image : List Byte) (h : 3584 < image.length) : s.load image = s := by
  rw [State.load, if_neg]
  rw [imageFits_iff]; omega

/-- A timer counts down to zero and no further (44_input_timers.md R177). -/
theorem countDown_toNat (b : Byte) : (countDown b).toNat = b.toNat - 1 := by
  unfold countDown
  split
  · rw [BitVec.toNat_sub_of_le] <;> simp [BitVec.le_def]; omega
  · omega

theorem State.keyEvent_pressed (k j : Fin 16) (p : Bool) :
    (s.keyEvent k p).pressed j = if j = k then p else s.pressed j := by
  simp only [State.pressed, State.keyEvent, State.setKeys_key, Vector.getElem_set, Fin.ext_iff,
    eq_comm]

theorem State.soundOn_iff : s.soundOn = true ↔ s.st.toNat ≠ 0 := by
  simp [State.soundOn, ← BitVec.toNat_inj]

/-- A property that every host operation keeps holds at the end of every run
(70_reset_and_hazards.md R239). -/
theorem runOps_induction (P : State → Prop)
    (h : ∀ (op : HostOp) (s t : State), P s → op.apply s = .next t → P t)
    (ops : List HostOp) (s t : State) (hs : P s) (hr : runOps ops s = .next t) : P t := by
  induction ops generalizing s with
  | nil => cases hr; exact hs
  | cons op ops ih =>
    rw [runOps] at hr
    split at hr
    · next s' he => exact ih s' (h op s s' hs he) hr
    · cases hr
    · cases hr

/-- A state that STEP leaves as it is stays so under any number of STEPs. -/
theorem runOps_steps_fixed (s : State) (h : step s = .next s) (n : Nat) (ops : List HostOp) :
    runOps (List.replicate n .step ++ ops) s = runOps ops s := by
  induction n with
  | zero => rfl
  | succ n ih =>
    rw [List.replicate_succ, List.cons_append, runOps]
    simp only [HostOp.apply, h]
    exact ih

end Sys2Proof.Machine
end

