-- ==== Sys2Proof/Laws/PerInstr.lean ====
section
/-! SUPPORT. One law an instruction: the word of an instruction lies in its row of
spec/opcode_table.json, read as a mask and a match (30_encoding.md R79). -/

namespace Sys2Proof

/-! ### A format under the table's masks -/

theorem formatA_bit (g : Nibble) (nnn : Addr) (k : Nat) :
    (formatA g nnn).getLsbD k = (g ++ nnn).getLsbD k := rfl

theorem formatXNN_bit (g : Nibble) (x : Reg) (kk : Byte) (k : Nat) :
    (formatXNN g x kk).getLsbD k = (g ++ nibbleOfReg x ++ kk).getLsbD k := rfl

theorem formatXYN_bit (g : Nibble) (x y : Reg) (n : Nibble) (k : Nat) :
    (formatXYN g x y n).getLsbD k = (g ++ nibbleOfReg x ++ nibbleOfReg y ++ n).getLsbD k := rfl

theorem formatA_group (g : Nibble) (nnn : Addr) : formatA g nnn &&& 0xF000#16 = formatA g 0 := by
  refine BitVec.eq_of_getLsbD_eq fun k hk => ?_
  simp only [BitVec.getLsbD_and, formatA_bit, BitVec.getLsbD_append]
  interval_cases k <;> simp

theorem formatXNN_group (g : Nibble) (x : Reg) (kk : Byte) : formatXNN g x kk &&& 0xF000#16 = formatXNN g 0 0 := by
  refine BitVec.eq_of_getLsbD_eq fun k hk => ?_
  simp only [BitVec.getLsbD_and, formatXNN_bit, BitVec.getLsbD_append]
  interval_cases k <;> simp [nibbleOfReg]

theorem formatXNN_sub (g : Nibble) (x : Reg) (kk : Byte) : formatXNN g x kk &&& 0xF0FF#16 = formatXNN g 0 kk := by
  refine BitVec.eq_of_getLsbD_eq fun k hk => ?_
  simp only [BitVec.getLsbD_and, formatXNN_bit, BitVec.getLsbD_append]
  interval_cases k <;> simp [nibbleOfReg]

theorem formatXYN_group (g : Nibble) (x y : Reg) (n : Nibble) : formatXYN g x y n &&& 0xF000#16 = formatXYN g 0 0 0 := by
  refine BitVec.eq_of_getLsbD_eq fun k hk => ?_
  simp only [BitVec.getLsbD_and, formatXYN_bit, BitVec.getLsbD_append]
  interval_cases k <;> simp [nibbleOfReg]

theorem formatXYN_sub (g : Nibble) (x y : Reg) (n : Nibble) : formatXYN g x y n &&& 0xF00F#16 = formatXYN g 0 0 n := by
  refine BitVec.eq_of_getLsbD_eq fun k hk => ?_
  simp only [BitVec.getLsbD_and, formatXYN_bit, BitVec.getLsbD_append]
  interval_cases k <;> simp [nibbleOfReg]

/-! ### The law -/

/-- The instruction's word lies in the instruction's row. -/
def Laws.EncodingInRow.Statement (i : Instr) : Prop := matchesRow (encode i) (opcodeRow i) = true

theorem Laws.EncodingInRow.cls : Laws.EncodingInRow.Statement .cls := by
  show matchesRow _ _ = true; decide

theorem Laws.EncodingInRow.ret : Laws.EncodingInRow.Statement .ret := by
  show matchesRow _ _ = true; decide

theorem Laws.EncodingInRow.jp (nnn : Addr) : Laws.EncodingInRow.Statement (.jp nnn) := by
  simp only [Laws.EncodingInRow.Statement, matchesRow, encode, opcodeRow, formatA_group]; decide

theorem Laws.EncodingInRow.call (nnn : Addr) : Laws.EncodingInRow.Statement (.call nnn) := by
  simp only [Laws.EncodingInRow.Statement, matchesRow, encode, opcodeRow, formatA_group]; decide

theorem Laws.EncodingInRow.seByte (x : Reg) (kk : Byte) : Laws.EncodingInRow.Statement (.seByte x kk) := by
  simp only [Laws.EncodingInRow.Statement, matchesRow, encode, opcodeRow, formatXNN_group]; decide

theorem Laws.EncodingInRow.sneByte (x : Reg) (kk : Byte) : Laws.EncodingInRow.Statement (.sneByte x kk) := by
  simp only [Laws.EncodingInRow.Statement, matchesRow, encode, opcodeRow, formatXNN_group]; decide

theorem Laws.EncodingInRow.seReg (x : Reg) (y : Reg) : Laws.EncodingInRow.Statement (.seReg x y) := by
  simp only [Laws.EncodingInRow.Statement, matchesRow, encode, opcodeRow, formatXYN_sub]; decide

theorem Laws.EncodingInRow.ldByte (x : Reg) (kk : Byte) : Laws.EncodingInRow.Statement (.ldByte x kk) := by
  simp only [Laws.EncodingInRow.Statement, matchesRow, encode, opcodeRow, formatXNN_group]; decide

theorem Laws.EncodingInRow.addByte (x : Reg) (kk : Byte) : Laws.EncodingInRow.Statement (.addByte x kk) := by
  simp only [Laws.EncodingInRow.Statement, matchesRow, encode, opcodeRow, formatXNN_group]; decide

theorem Laws.EncodingInRow.ldReg (x : Reg) (y : Reg) : Laws.EncodingInRow.Statement (.ldReg x y) := by
  simp only [Laws.EncodingInRow.Statement, matchesRow, encode, opcodeRow, formatXYN_sub]; decide

theorem Laws.EncodingInRow.orReg (x : Reg) (y : Reg) : Laws.EncodingInRow.Statement (.orReg x y) := by
  simp only [Laws.EncodingInRow.Statement, matchesRow, encode, opcodeRow, formatXYN_sub]; decide

theorem Laws.EncodingInRow.andReg (x : Reg) (y : Reg) : Laws.EncodingInRow.Statement (.andReg x y) := by
  simp only [Laws.EncodingInRow.Statement, matchesRow, encode, opcodeRow, formatXYN_sub]; decide

theorem Laws.EncodingInRow.xorReg (x : Reg) (y : Reg) : Laws.EncodingInRow.Statement (.xorReg x y) := by
  simp only [Laws.EncodingInRow.Statement, matchesRow, encode, opcodeRow, formatXYN_sub]; decide

theorem Laws.EncodingInRow.addReg (x : Reg) (y : Reg) : Laws.EncodingInRow.Statement (.addReg x y) := by
  simp only [Laws.EncodingInRow.Statement, matchesRow, encode, opcodeRow, formatXYN_sub]; decide

theorem Laws.EncodingInRow.subReg (x : Reg) (y : Reg) : Laws.EncodingInRow.Statement (.subReg x y) := by
  simp only [Laws.EncodingInRow.Statement, matchesRow, encode, opcodeRow, formatXYN_sub]; decide

theorem Laws.EncodingInRow.shr (x : Reg) (y : Reg) : Laws.EncodingInRow.Statement (.shr x y) := by
  simp only [Laws.EncodingInRow.Statement, matchesRow, encode, opcodeRow, formatXYN_sub]; decide

theorem Laws.EncodingInRow.subnReg (x : Reg) (y : Reg) : Laws.EncodingInRow.Statement (.subnReg x y) := by
  simp only [Laws.EncodingInRow.Statement, matchesRow, encode, opcodeRow, formatXYN_sub]; decide

theorem Laws.EncodingInRow.shl (x : Reg) (y : Reg) : Laws.EncodingInRow.Statement (.shl x y) := by
  simp only [Laws.EncodingInRow.Statement, matchesRow, encode, opcodeRow, formatXYN_sub]; decide

theorem Laws.EncodingInRow.sneReg (x : Reg) (y : Reg) : Laws.EncodingInRow.Statement (.sneReg x y) := by
  simp only [Laws.EncodingInRow.Statement, matchesRow, encode, opcodeRow, formatXYN_sub]; decide

theorem Laws.EncodingInRow.ldI (nnn : Addr) : Laws.EncodingInRow.Statement (.ldI nnn) := by
  simp only [Laws.EncodingInRow.Statement, matchesRow, encode, opcodeRow, formatA_group]; decide

theorem Laws.EncodingInRow.jpV0 (nnn : Addr) : Laws.EncodingInRow.Statement (.jpV0 nnn) := by
  simp only [Laws.EncodingInRow.Statement, matchesRow, encode, opcodeRow, formatA_group]; decide

theorem Laws.EncodingInRow.rnd (x : Reg) (kk : Byte) : Laws.EncodingInRow.Statement (.rnd x kk) := by
  simp only [Laws.EncodingInRow.Statement, matchesRow, encode, opcodeRow, formatXNN_group]; decide

theorem Laws.EncodingInRow.drw (x : Reg) (y : Reg) (n : Nibble) : Laws.EncodingInRow.Statement (.drw x y n) := by
  simp only [Laws.EncodingInRow.Statement, matchesRow, encode, opcodeRow, formatXYN_group]; decide

theorem Laws.EncodingInRow.skp (x : Reg) : Laws.EncodingInRow.Statement (.skp x) := by
  simp only [Laws.EncodingInRow.Statement, matchesRow, encode, opcodeRow, formatXNN_sub]; decide

theorem Laws.EncodingInRow.sknp (x : Reg) : Laws.EncodingInRow.Statement (.sknp x) := by
  simp only [Laws.EncodingInRow.Statement, matchesRow, encode, opcodeRow, formatXNN_sub]; decide

theorem Laws.EncodingInRow.ldVxDt (x : Reg) : Laws.EncodingInRow.Statement (.ldVxDt x) := by
  simp only [Laws.EncodingInRow.Statement, matchesRow, encode, opcodeRow, formatXNN_sub]; decide

theorem Laws.EncodingInRow.ldVxK (x : Reg) : Laws.EncodingInRow.Statement (.ldVxK x) := by
  simp only [Laws.EncodingInRow.Statement, matchesRow, encode, opcodeRow, formatXNN_sub]; decide

theorem Laws.EncodingInRow.ldDtVx (x : Reg) : Laws.EncodingInRow.Statement (.ldDtVx x) := by
  simp only [Laws.EncodingInRow.Statement, matchesRow, encode, opcodeRow, formatXNN_sub]; decide

theorem Laws.EncodingInRow.ldStVx (x : Reg) : Laws.EncodingInRow.Statement (.ldStVx x) := by
  simp only [Laws.EncodingInRow.Statement, matchesRow, encode, opcodeRow, formatXNN_sub]; decide

theorem Laws.EncodingInRow.addIVx (x : Reg) : Laws.EncodingInRow.Statement (.addIVx x) := by
  simp only [Laws.EncodingInRow.Statement, matchesRow, encode, opcodeRow, formatXNN_sub]; decide

theorem Laws.EncodingInRow.ldFVx (x : Reg) : Laws.EncodingInRow.Statement (.ldFVx x) := by
  simp only [Laws.EncodingInRow.Statement, matchesRow, encode, opcodeRow, formatXNN_sub]; decide

theorem Laws.EncodingInRow.ldBVx (x : Reg) : Laws.EncodingInRow.Statement (.ldBVx x) := by
  simp only [Laws.EncodingInRow.Statement, matchesRow, encode, opcodeRow, formatXNN_sub]; decide

theorem Laws.EncodingInRow.storeRegs (x : Reg) : Laws.EncodingInRow.Statement (.storeRegs x) := by
  simp only [Laws.EncodingInRow.Statement, matchesRow, encode, opcodeRow, formatXNN_sub]; decide

theorem Laws.EncodingInRow.loadRegs (x : Reg) : Laws.EncodingInRow.Statement (.loadRegs x) := by
  simp only [Laws.EncodingInRow.Statement, matchesRow, encode, opcodeRow, formatXNN_sub]; decide

end Sys2Proof
end

