-- ==== Sys2Proof/Tests/Slice0.lean ====
section
/-! SUPPORT. Tests: words written out bit by bit, the well-formedness checks' refusals, one-step
vectors (expected values from spec/95_test_vectors.md, by the numbers it gives them), and for every
statement with hypotheses a state and operands that meet them. -/

namespace Sys2Proof.Tests

set_option Elab.async false

open Sys2Proof.Machine Sys2Proof.Claims

/-! ### Helpers -/

/-- The RESET state with some registers set. -/
def regs (l : List (Reg × Nat)) : State :=
  l.foldl (fun s p => s.setReg p.1 (BitVec.ofNat 8 p.2)) State.reset

/-- Bytes put in memory. -/
def poke (a : Nat) (bytes : List Byte) (s : State) : State := s.storeBytes a bytes

/-- One STEP of a word at pc, and what is looked at after it. -/
def run {α : Type} (w : Word) (s : State) (look : State → α) : Option α :=
  match step (s.withFetchWord 16 w.toNat) with
  | .next t => some (look t)
  | _ => none

/-- pc after one STEP of a word. -/
def runPc (w : Word) (s : State) : Option Word := run w s (·.pc)

/-- Vx and VF after one STEP of a word. -/
def runFlag (w : Word) (x : Reg) (s : State) : Option (Byte × Byte) :=
  run w s fun t => (t.reg x, t.reg 15)

/-- The fault record after one STEP of a word. -/
def runFault (w : Word) (s : State) : Option FaultStatus := run w s (·.fault)

/-- A halted state: the empty stack popped at 0x200. -/
def halted : State :=
  (State.reset.setDt 3#8).setFault (.halted .stackUnderflow 0x200#16 0x00EE#16 0#16)

/-- A call stack of `n` entries, all 0x0202. -/
def nested (n : Fin 17) : State := State.reset.setCalls (Vector.replicate 16 0x0202#16) n

/-! ### Decoding: every constructor, its word written out from R74 and R79 -/

theorem test_decode_control :
    decodeWord 0b0000000011100000#16 = some .cls ∧
    decodeWord 0b0000000011101110#16 = some .ret ∧
    decodeWord 0b0001001000110100#16 = some (.jp 0x234#12) ∧
    decodeWord 0b0010001100000000#16 = some (.call 0x300#12) ∧
    decodeWord 0b0011101000000101#16 = some (.seByte 10 0x05#8) ∧
    decodeWord 0b0100101000000110#16 = some (.sneByte 10 0x06#8) ∧
    decodeWord 0b0101101010110000#16 = some (.seReg 10 11) ∧
    decodeWord 0b1001101010110000#16 = some (.sneReg 10 11) ∧
    decodeWord 0b1011111111111111#16 = some (.jpV0 0xFFF#12) := by decide +kernel

theorem test_decode_arithmetic :
    decodeWord 0b0110101000000010#16 = some (.ldByte 10 0x02#8) ∧
    decodeWord 0b0111101000000010#16 = some (.addByte 10 0x02#8) ∧
    decodeWord 0b1000101010110000#16 = some (.ldReg 10 11) ∧
    decodeWord 0b1000101010110001#16 = some (.orReg 10 11) ∧
    decodeWord 0b1000101010110010#16 = some (.andReg 10 11) ∧
    decodeWord 0b1000101010110011#16 = some (.xorReg 10 11) ∧
    decodeWord 0b1000101010110100#16 = some (.addReg 10 11) ∧
    decodeWord 0b1000101010110101#16 = some (.subReg 10 11) ∧
    decodeWord 0b1000101010110110#16 = some (.shr 10 11) ∧
    decodeWord 0b1000101010110111#16 = some (.subnReg 10 11) ∧
    decodeWord 0b1000101010111110#16 = some (.shl 10 11) ∧
    decodeWord 0b1100101000001111#16 = some (.rnd 10 0x0F#8) := by decide +kernel

theorem test_decode_memory_and_display :
    decodeWord 0b1010101111001101#16 = some (.ldI 0xBCD#12) ∧
    decodeWord 0b1111101000011110#16 = some (.addIVx 10) ∧
    decodeWord 0b1111101000101001#16 = some (.ldFVx 10) ∧
    decodeWord 0b1111000000110011#16 = some (.ldBVx 0) ∧
    decodeWord 0b1111001001010101#16 = some (.storeRegs 2) ∧
    decodeWord 0b1111111101100101#16 = some (.loadRegs 15) ∧
    decodeWord 0b1101000100100101#16 = some (.drw 1 2 0x5#4) := by decide +kernel

theorem test_decode_input_and_timers :
    decodeWord 0b1110101010011110#16 = some (.skp 10) ∧
    decodeWord 0b1110101010100001#16 = some (.sknp 10) ∧
    decodeWord 0b1111101000000111#16 = some (.ldVxDt 10) ∧
    decodeWord 0b1111101000001010#16 = some (.ldVxK 10) ∧
    decodeWord 0b1111101000010101#16 = some (.ldDtVx 10) ∧
    decodeWord 0b1111101000011000#16 = some (.ldStVx 10) := by decide +kernel

/-- The illegal words of V16, V19, V55, V56, V123 to V125 and V130 to V139, and one byte alone. -/
theorem test_decode_rejects :
    [0x0000#16, 0x0123#16, 0x00E1#16, 0x00EF#16, 0x5AB1#16, 0x5121#16, 0x8AB8#16, 0x8ABF#16,
      0x812F#16, 0x9AB1#16].all (fun w => decodeWord w == none) = true ∧
    [0xE09F#16, 0xE1A2#16, 0xF000#16, 0xF166#16, 0xF1FF#16].all
      (fun w => decodeWord w == none) = true ∧
    (match decode [0x12#8] with | .error .truncated => true | _ => false) = true ∧
    decodeTableWord 16 0xD125 = some (.drw 1 2 0x5#4) := by decide +kernel

/-! ### Well-formedness: each check on a word or image it refuses, beside one it accepts -/

theorem test_wf_group0 : legalWord 0x00EF#16 = false ∧ legalWord 0x0000#16 = false ∧
    legalWord 0x00E0#16 = true := by decide +kernel

theorem test_wf_group5 : legalWord 0x5AB1#16 = false ∧ legalWord 0x5AB0#16 = true := by
  decide +kernel

theorem test_wf_group8 : legalWord 0x8AB8#16 = false ∧ legalWord 0x8ABF#16 = false ∧
    legalWord 0x8AB7#16 = true ∧ legalWord 0x8ABE#16 = true := by decide +kernel

theorem test_wf_group9 : legalWord 0x9AB1#16 = false ∧ legalWord 0x9AB0#16 = true := by
  decide +kernel

theorem test_wf_groupE : legalWord 0xE09F#16 = false ∧ legalWord 0xE19E#16 = true := by
  decide +kernel

theorem test_wf_groupF : legalWord 0xF166#16 = false ∧ legalWord 0xF165#16 = true := by
  decide +kernel

/-- V141, V142. -/
theorem test_wf_image : imageFits (List.replicate 3585 0#8) = false ∧
    imageFits (List.replicate 3584 0#8) = true := by decide +kernel

/-! ### One STEP: control flow -/

/-- V1. -/
theorem test_cls : run 0x00E0#16
    (State.reset.setDisp ((State.reset.disp.toggle 3 1).toggle 10 20))
    (fun t => (t.disp, t.pc)) = some (State.reset.disp, 0x202#16) := by decide +kernel

/-- V2. -/
theorem test_ret_pops : run 0x00EE#16 (State.reset.setCalls (State.reset.stack.set 0 0x204#16) 1)
    (fun t => (t.sp, t.pc, t.stack[0])) = some (0, 0x204#16, 0x204#16) := by decide +kernel

/-- V3. -/
theorem test_ret_underflow : run 0x00EE#16 State.reset (fun t => (t.fault, t.pc)) =
    some (.halted .stackUnderflow 0x200#16 0x00EE#16 0#16, 0x200#16) := by decide +kernel

/-- V4, V6. -/
theorem test_jp : runPc 0x1234#16 State.reset = some 0x234#16 ∧
    runPc 0x1FFF#16 State.reset = some 0xFFF#16 := by decide +kernel

/-- V7. -/
theorem test_call_pushes : run 0x2300#16 State.reset (fun t => (t.stack[0], t.sp, t.pc)) =
    some (0x202#16, 1, 0x300#16) := by decide +kernel

/-- V8. -/
theorem test_call_overflow : run 0x2300#16 (nested 16) (fun t => (t.fault, t.sp, t.pc)) =
    some (.halted .stackOverflow 0x200#16 0x2300#16 0#16, 16, 0x200#16) := by decide +kernel

/-- V10, V11. -/
theorem test_se_byte : runPc 0x3A05#16 (regs [(10, 0x05)]) = some 0x204#16 ∧
    runPc 0x3A05#16 (regs [(10, 0x06)]) = some 0x202#16 := by decide +kernel

/-- V12, V13. -/
theorem test_sne_byte : runPc 0x4A05#16 (regs [(10, 0x05)]) = some 0x202#16 ∧
    runPc 0x4A06#16 (regs [(10, 0x05)]) = some 0x204#16 := by decide +kernel

/-- V14, and its registers made different. -/
theorem test_se_reg : runPc 0x5AB0#16 (regs [(10, 7), (11, 7)]) = some 0x204#16 ∧
    runPc 0x5AB0#16 (regs [(10, 7), (11, 8)]) = some 0x202#16 := by decide +kernel

/-- V17, V18. -/
theorem test_sne_reg : runPc 0x9AB0#16 (regs [(10, 1), (11, 2)]) = some 0x204#16 ∧
    runPc 0x9AA0#16 (regs [(10, 3)]) = some 0x202#16 := by decide +kernel

/-- V22, V23. -/
theorem test_jp_v0 : runPc 0xB300#16 (regs [(0, 0x10)]) = some 0x310#16 ∧
    runPc 0xBFFF#16 (regs [(0, 0xFF)]) = some 0x10FE#16 := by decide +kernel

/-! ### One STEP: register and arithmetic -/

/-- V30, V31. -/
theorem test_ld_byte : run 0x6A02#16 State.reset (·.reg 10) = some 0x02#8 ∧
    run 0x6F55#16 State.reset (·.reg 15) = some 0x55#8 := by decide +kernel

/-- V32. -/
theorem test_add_byte_keeps_flag :
    runFlag 0x7A02#16 10 (regs [(10, 0xFF), (15, 0x77)]) = some (0x01#8, 0x77#8) := by
  decide +kernel

/-- V33. -/
theorem test_ld_reg : run 0x8AB0#16 (regs [(11, 0x3C)]) (·.reg 10) = some 0x3C#8 := by
  decide +kernel

/-- V34. -/
theorem test_or_keeps_flag :
    runFlag 0x8AB1#16 10 (regs [(10, 0xF0), (11, 0x0F), (15, 0x77)]) = some (0xFF#8, 0x77#8) := by
  decide +kernel

/-- V35. -/
theorem test_and : run 0x8AB2#16 (regs [(10, 0xF0), (11, 0x3C)]) (·.reg 10) = some 0x30#8 := by
  decide +kernel

/-- V36. -/
theorem test_xor : run 0x8AB3#16 (regs [(10, 0xF0), (11, 0x3C)]) (·.reg 10) = some 0xCC#8 := by
  decide +kernel

/-- V38, W1. -/
theorem test_add_carry : runFlag 0x8AA4#16 10 (regs [(10, 0x81)]) = some (0x02#8, 1#8) ∧
    runFlag 0x8AB4#16 10 (regs [(10, 0x7F), (11, 0x80)]) = some (0xFF#8, 0#8) := by decide +kernel

/-- V39, V40. -/
theorem test_add_flag_register : runFlag 0x8FA4#16 10 (regs [(10, 0x20), (15, 0x10)]) =
      some (0x20#8, 0#8) ∧
    runFlag 0x8AF4#16 10 (regs [(10, 0xFF), (15, 0x01)]) = some (0#8, 1#8) := by decide +kernel

/-- W2. -/
theorem test_sub_borrow : runFlag 0x8AB5#16 10 (regs [(10, 0x05), (11, 0x07)]) =
      some (0xFE#8, 0#8) ∧
    runFlag 0x8AB5#16 10 (regs [(10, 0x05), (11, 0x05)]) = some (0#8, 1#8) := by decide +kernel

/-- V41, V42. -/
theorem test_sub_flag_register : runFlag 0x8FA5#16 10 (regs [(10, 0x05), (15, 0x03)]) =
      some (0x05#8, 0#8) ∧
    runFlag 0x8AF5#16 10 (regs [(10, 0x10), (15, 0x01)]) = some (0x0F#8, 1#8) := by decide +kernel

/-- V44, V46. -/
theorem test_shr : runFlag 0x8AB6#16 10 (regs [(10, 0x05), (11, 0xFF)]) = some (0x02#8, 1#8) ∧
    runFlag 0x8F06#16 15 (regs [(15, 0x02)]) = some (0#8, 0#8) := by decide +kernel

/-- V47, V48. -/
theorem test_subn : runFlag 0x8AB7#16 10 (regs [(10, 0x05), (11, 0x07)]) = some (0x02#8, 1#8) ∧
    runFlag 0x8AB7#16 10 (regs [(10, 0x01)]) = some (0xFF#8, 0#8) := by decide +kernel

/-- V49, V50. -/
theorem test_shl : runFlag 0x8ABE#16 10 (regs [(10, 0x81)]) = some (0x02#8, 1#8) ∧
    runFlag 0x8ABE#16 10 (regs [(10, 0x7F)]) = some (0xFE#8, 0#8) := by decide +kernel

/-- V52, V53, V54: the masking, for the draws named; and one draw is counted. -/
theorem test_rnd_masks_a_draw :
    (State.takeRandom 0xAB#8 10 0x0F#8 State.reset).reg 10 = 0x0B#8 ∧
    (State.takeRandom 0xAB#8 10 0x00#8 State.reset).reg 10 = 0x00#8 ∧
    (State.takeRandom 0x5C#8 10 0xFF#8 State.reset).reg 10 = 0x5C#8 ∧
    run 0xCAFF#16 State.reset (fun t => (t.draws, t.pc)) = some (1, 0x202#16) := by decide +kernel

/-! ### One STEP: memory, index, BCD, register block -/

/-- V60. -/
theorem test_ld_i : run 0xABCD#16 (State.reset.setI 0xF123#16) (·.i) = some 0x0BCD#16 := by
  decide +kernel

/-- V61, V62. -/
theorem test_add_i : run 0xFA1E#16 ((regs [(10, 2), (15, 0x55)]).setI 0xFFFF#16)
      (fun t => (t.i, t.reg 15)) = some (0x0001#16, 0x55#8) ∧
    run 0xFA1E#16 ((regs [(10, 1)]).setI 0x0FFF#16) (fun t => (t.i, t.fault)) =
      some (0x1000#16, .none) := by decide +kernel

/-- V64, V66. -/
theorem test_ld_f : run 0xFA29#16 (regs [(10, 0x1B)]) (·.i) = some 0x0037#16 ∧
    run 0xFA29#16 (regs [(10, 0x0F)]) (·.i) = some 0x004B#16 := by decide +kernel

/-- V67, V69. -/
theorem test_bcd : run 0xF033#16 ((regs [(0, 0x9C)]).setI 0x300#16)
      (fun t => t.readBytes 0x300 3) = some [1#8, 5#8, 6#8] ∧
    run 0xF033#16 ((regs [(0, 0xFF)]).setI 0xFFD#16)
      (fun t => t.readBytes 0xFFD 3) = some [2#8, 5#8, 5#8] := by decide +kernel

/-- V71, V72: the fault's address; a BCD store over the high byte of its own word. -/
theorem test_bcd_out_of_range_and_over_itself :
    runFault 0xF033#16 (State.reset.setI 0x2000#16) =
      some (.halted .dataAddressOutOfRange 0x200#16 0xF033#16 0x2000#16) ∧
    run 0xF033#16 ((regs [(0, 18)]).setI 0x1FE#16) (fun t => (t.pc, t.readWord 0x200)) =
      some (0x202#16, 0x0833#16) := by decide +kernel

/-- V73. -/
theorem test_store_regs : run 0xF255#16 ((regs [(0, 1), (1, 2), (2, 3), (3, 4)]).setI 0x400#16)
    (fun t => (t.readBytes 0x400 4, t.i)) = some ([1#8, 2#8, 3#8, 0#8], 0x400#16) := by
  decide +kernel

/-- V75, V76. -/
theorem test_store_regs_at_the_end :
    run 0xFF55#16 ((regs [(0, 9)]).setI 0xFF1#16) (fun t => (t.fault, t.readByte 0xFF1)) =
      some (.halted .dataAddressOutOfRange 0x200#16 0xFF55#16 0x1000#16, 0#8) ∧
    run 0xF055#16 ((regs [(0, 9)]).setI 0xFFF#16) (fun t => t.readByte 0xFFF) = some 9#8 := by
  decide +kernel

/-- V79. -/
theorem test_load_regs :
    run 0xF165#16 (poke 0x400 [0xAA#8, 0xBB#8, 0xCC#8] ((regs [(2, 0x77)]).setI 0x400#16))
      (fun t => ([t.reg 0, t.reg 1, t.reg 2], t.i)) =
        some ([0xAA#8, 0xBB#8, 0x77#8], 0x400#16) := by decide +kernel

/-- V80. -/
theorem test_load_regs_out_of_range :
    run 0xF165#16 ((regs [(0, 7)]).setI 0xFFF#16) (fun t => (t.fault, t.reg 0)) =
      some (.halted .dataAddressOutOfRange 0x200#16 0xF165#16 0x1000#16, 7#8) := by decide +kernel

/-! ### One STEP: display -/

/-- W11, V90: glyph 0 at (0, 0). -/
theorem test_drw_glyph : run 0xD005#16 State.reset
    (fun t => ((t.disp.toList.map BitVec.toNat).take 6, t.reg 15)) =
      some ([0xF, 0x9, 0x9, 0x9, 0xF, 0], 0#8) := by decide +kernel

/-- V99, W5. -/
theorem test_drw_collision_and_wrap :
    run 0xD001#16 (poke 0x300 [0xC0#8]
        ((State.reset.setDisp (State.reset.disp.toggle 1 0)).setI 0x300#16))
      (fun t => (t.disp.pixel 0 0, t.disp.pixel 1 0, t.reg 15)) = some (true, false, 1#8) ∧
    run 0xD011#16 (poke 0x300 [0xFF#8] ((regs [(0, 0x3F)]).setI 0x300#16))
      (fun t => ((t.disp[0]).toNat, t.reg 15)) = some (0x800000000000007F, 0#8) := by
  decide +kernel

/-! ### One STEP: input and timers -/

/-- V111, V112. -/
theorem test_skp : runPc 0xEA9E#16 (regs [(10, 5)]) = some 0x202#16 ∧
    runPc 0xEA9E#16 ((regs [(10, 0x15)]).keyEvent 5 true) = some 0x204#16 := by decide +kernel

/-- V113, V114. -/
theorem test_sknp : runPc 0xEAA1#16 ((regs [(10, 5)]).keyEvent 5 true) = some 0x202#16 ∧
    runPc 0xEAA1#16 (regs [(10, 5)]) = some 0x204#16 := by decide +kernel

/-- V115. -/
theorem test_ld_vx_dt : run 0xFA07#16 (State.reset.setDt 0x3C#8) (fun t => (t.reg 10, t.dt)) =
    some (0x3C#8, 0x3C#8) := by decide +kernel

/-- V116, V117. -/
theorem test_ld_vx_k : run 0xFA0A#16 ((State.reset.keyEvent 9 true).keyEvent 3 true)
      (fun t => (t.reg 10, t.pc)) = some (3#8, 0x202#16) ∧
    run 0xFA0A#16 (regs [(10, 7)]) (fun t => (t.reg 10, t.pc)) = some (7#8, 0x200#16) := by
  decide +kernel

/-- V119. -/
theorem test_ld_dt_vx : run 0xFA15#16 (regs [(10, 0x3C)]) (·.dt) = some 0x3C#8 := by
  decide +kernel

/-- V120, V121. -/
theorem test_ld_st_vx : run 0xFA18#16 (regs [(10, 2)]) (fun t => (t.st, t.soundOn)) =
      some (2#8, true) ∧
    run 0xFA18#16 (State.reset.setSt 9#8) (fun t => (t.st, t.soundOn)) = some (0#8, false) := by
  decide +kernel

/-! ### Host operations -/

/-- V122. -/
theorem test_tick : ((State.reset.setDt 1#8).setSt 2#8).tick.readTimers = ⟨0#8, 1#8, true⟩ ∧
    ((State.reset.setDt 0#8).setSt 1#8).tick.readTimers = ⟨0#8, 0#8, false⟩ := by decide +kernel

/-- V143. -/
theorem test_load : (State.reset.load [0x12#8, 0x00#8, 0xAB#8]).readBytes 0x200 4 =
    [0x12#8, 0x00#8, 0xAB#8, 0x00#8] := by decide +kernel

/-- V147. -/
theorem test_read_display :
    (State.reset.setDisp (State.reset.disp.toggle 3 1)).readDisplay[67] = true ∧
    (State.reset.setDisp (State.reset.disp.toggle 3 1)).readDisplay[66] = false := by
  simp only [State.readDisplay, Vector.getElem_ofFn]
  decide +kernel

/-- The codes of 60_exceptions.md R201. -/
theorem test_fault_codes : [Fault.unknownInstruction, .stackUnderflow, .stackOverflow,
    .dataAddressOutOfRange, .fetchAddressOutOfRange].map Fault.code = [1, 2, 3, 4, 5] := by
  decide +kernel

/-- RESET: the font's first and last glyph, and the byte after it (20_memory.md R57). -/
theorem test_reset_font : State.reset.readBytes 0x000 5 = [0xF0#8, 0x90#8, 0x90#8, 0x90#8, 0xF0#8] ∧
    State.reset.readBytes 0x04B 6 = [0xF0#8, 0x80#8, 0xF0#8, 0x80#8, 0x80#8, 0x00#8] ∧
    State.reset.mem.wf State.reset.font := by
  exact ⟨by decide +kernel, by decide +kernel, by decide⟩

/-! ### Witnesses: for each statement with hypotheses, a state and operands that meet them, at the
boundary of each clause -/

/-- A word at pc = A, with no fault. -/
def at_ (a : Word) (hi lo : Byte) : State := poke a.toNat [hi, lo] (State.reset.setPc a)

/-- EncodeOfDecodedWordIsTheWord; WordMatchesAtMostOneRow. -/
theorem test_witness_encoding : decodeWord 0xD125#16 = some (.drw 1 2 5) ∧
    (0xF00F#16, 0x8006#16) ∈ opcodeTable ∧
    matchesRow 0x8126#16 (0xF00F#16, 0x8006#16) = true := by decide +kernel

/-- StepIsTheInstructionCycle: its four clauses, the last two at pc = 0xFFE. -/
theorem test_witness_step :
    halted.fault ≠ .none ∧
    (State.reset.setPc 0xFFF#16).fault = .none ∧ 0xFFE < (State.reset.setPc 0xFFF#16).pc.toNat ∧
    (at_ 0xFFE#16 0 0).fault = .none ∧ (at_ 0xFFE#16 0 0).pc.toNat ≤ 0xFFE ∧
    decodeWord (BitVec.ofNat 16 (at_ 0xFFE#16 0 0).wordAtPc) = none ∧
    (at_ 0xFFE#16 0x1F#8 0xFE#8).fault = .none ∧ (at_ 0xFFE#16 0x1F#8 0xFE#8).pc.toNat ≤ 0xFFE ∧
    Decodes (at_ 0xFFE#16 0x1F#8 0xFE#8).wordAtPc (.jp 0xFFE) := by
  refine ⟨?_, ?_, ?_, ?_, ?_, ?_, ?_, ?_, ?_⟩ <;> first | decide +kernel | (unfold Decodes; decide +kernel)

/-- PlacedWordRunsNext, at the last place for a word. -/
theorem test_witness_placed : (State.reset.setPc 0xFFE#16).pc.toNat ≤ 0xFFE := by decide

/-- RetPopsOrRaisesUnderflow: SP = 1 and SP = 0. CallPushesOrRaisesOverflow: SP = 15 and
SP = 16. -/
theorem test_witness_calls : 0 < (nested 1).sp.val ∧ (nested 0).sp.val = 0 ∧
    (nested 15).sp.val < 16 ∧ (nested 16).sp.val = 16 := by decide

/-- ByteSkipsCompareWithImmediate and RegisterSkipsCompareRegisters: equal, and not. -/
theorem test_witness_skips : val (regs [(1, 5), (2, 5)]) 1 = (5#8).toNat ∧
    val (regs [(1, 5), (2, 5)]) 1 = val (regs [(1, 5), (2, 5)]) 2 ∧
    val (regs [(1, 5)]) 1 ≠ (6#8).toNat ∧ val (regs [(1, 5)]) 1 ≠ val (regs [(1, 5)]) 2 := by
  decide +kernel

/-- The flag-setting statements' X ≠ F; RndMasksOneFreeDraw's zero immediate. -/
theorem test_witness_alu : (14 : Reg) ≠ 15 ∧ (0x00#8 : Byte) = 0 := by decide

/-- BcdStoresThreeDigits, RegisterBlockStore, RegisterBlockLoad: the last place in range and the
first out of it. -/
theorem test_witness_data_ranges :
    DataInRange 3 (State.reset.setI 0xFFD#16) ∧ DataOutOfRange 3 (State.reset.setI 0xFFE#16) ∧
    DataInRange ((15 : Reg).val + 1) (State.reset.setI 0xFF0#16) ∧
    DataOutOfRange ((15 : Reg).val + 1) (State.reset.setI 0xFF1#16) := by
  unfold DataInRange DataOutOfRange
  decide +kernel

/-- RegisterBlockRoundTrip: the state after the store, with every register changed. -/
theorem test_witness_round_trip : ∃ t u : State, DataInRange 16 (State.reset.setI 0xFF0#16) ∧
    exec (.storeRegs 15) (State.reset.setI 0xFF0#16) = .next t ∧ u.v ≠ t.v ∧
    u.i = (State.reset.setI 0xFF0#16).i ∧ ∀ k : Reg, k ≤ 15 →
      u.readByte ((State.reset.setI 0xFF0#16).i.toNat + k.val) =
        t.readByte ((State.reset.setI 0xFF0#16).i.toNat + k.val) :=
  ⟨_, (State.reset.setI 0xFF0#16).setV (Vector.replicate 16 0xEE#8), by unfold DataInRange; decide +kernel, rfl,
    by decide +kernel, rfl, by decide +kernel⟩

/-- FetchSeesStoredBytes: its three clauses. -/
theorem test_witness_fetch_sees :
    DataInRange ((15 : Reg).val + 1) ((State.reset.setI 0xFF0#16).setPc 0xFFE#16) ∧
    ((14 : Fin 16).val + 1 ≤ (15 : Reg).val ∧
      ((State.reset.setI 0xFF0#16).setPc 0xFFE#16).pc.toNat = 0xFF0 + (14 : Fin 16).val) ∧
    DataInRange 3 ((State.reset.setI 0xFFD#16).setPc 0xFFD#16) ∧
    ((State.reset.setI 0xFFD#16).setPc 0xFFD#16).pc =
      ((State.reset.setI 0xFFD#16).setPc 0xFFD#16).i ∧
    (List.replicate 3582 0x00#8).length ≤ 3582 ∧ State.reset.pc = 0x200#16 := by
  unfold DataInRange
  decide +kernel

/-- DrawXorsEveryPixelAndReportsCollision, DrawTwiceRestoresTheDisplay: N = 0; the last sprite in
range; the first out of it. -/
theorem test_witness_draw_ranges : (0#4 : Nibble).toNat = 0 ∧
    DataInRange (15#4 : Nibble).toNat (State.reset.setI 0xFF1#16) ∧
    DataOutOfRange (15#4 : Nibble).toNat (State.reset.setI 0xFF2#16) := by
  unfold DataInRange DataOutOfRange
  decide +kernel

/-- The same: glyph 0 at (0, 0) has pixel (3, 4) under a one bit and (4, 4) not; with (3, 4) set
there is a collision. -/
theorem test_witness_sprite : SpriteOn State.reset 0 0 5 3 4 ∧ ¬ SpriteOn State.reset 0 0 5 4 4 ∧
    (State.reset.disp.toggle 3 4).pixel 3 4 = true := by
  refine ⟨⟨4, 3, by decide, by decide, by decide +kernel, by decide, by decide⟩, ?_,
    by decide +kernel⟩
  rintro ⟨row, col, hr, hc, hb, hx, hy⟩
  have h : row = 4 ∧ col = 4 := by
    constructor
    · have : (4 : Fin 32).val = 4 := rfl
      omega
    · have : (4 : Fin 64).val = 4 := rfl
      omega
  obtain ⟨rfl, rfl⟩ := h
  exact absurd hb (by decide +kernel)

/-- DrawTwiceRestoresTheDisplay: the state after the first draw, VF and all. -/
theorem test_witness_draw_twice : ∃ t : State, exec (.drw 0 0 5) State.reset = .next t ∧
    t.reg 0 = State.reset.reg 0 := ⟨_, rfl, by decide +kernel⟩

/-- KeySkipsTestTheLowNibblesKey and KeyWaitTakesTheLowestKeyOrRewinds: a key pressed, the lowest;
and none. -/
theorem test_witness_keys :
    (∃ k : Fin 16, k.val = val (regs [(10, 0x1F)]) 10 % 16 ∧
      ((regs [(10, 0x1F)]).keyEvent 15 true).pressed k = true) ∧
    (∃ k : Fin 16, k.val = val (regs [(10, 0x1F)]) 10 % 16 ∧
      (regs [(10, 0x1F)]).pressed k = false) ∧
    ((State.reset.keyEvent 9 true).keyEvent 3 true).pressed 3 = true ∧
    (∀ j : Fin 16, j < 3 → ((State.reset.keyEvent 9 true).keyEvent 3 true).pressed j = false) ∧
    ∀ k : Fin 16, State.reset.pressed k = false := by decide +kernel

/-- KeyWaitStallsUntilAKeyPress and EndStatesAreFixed's third end, at pc = 0xFFE. -/
theorem test_witness_key_wait : (at_ 0xFFE#16 0xFF#8 0x0A#8).AtKeyWait :=
  ⟨by decide +kernel, by decide +kernel, ⟨15, by decide +kernel⟩, by decide +kernel⟩

/-- EndStatesAreFixed's first and second ends; OnlyResetClearsAFault and
HaltedMachineOnlyStepsStop. -/
theorem test_witness_ends : halted.AtHalt ∧ (at_ 0xFFE#16 0x1F#8 0xFE#8).AtSelfLoop ∧
    halted.fault ≠ .none ∧ HostOp.step ≠ .reset :=
  ⟨by unfold State.AtHalt; decide +kernel,
    ⟨by decide +kernel, by decide +kernel, by decide +kernel⟩, by decide +kernel, by decide⟩

/-- SoundFollowsTheSoundTimer: an instruction that changes the sound output, both ways; TICK from
ST = 1, and a sound output that is off. -/
theorem test_witness_sound :
    (∃ t, exec (.ldStVx 1) (regs [(1, 2)]) = .next t ∧ t.soundOn ≠ (regs [(1, 2)]).soundOn) ∧
    (∃ t, exec (.ldStVx 1) (State.reset.setSt 9#8) = .next t ∧
      t.soundOn ≠ (State.reset.setSt 9#8).soundOn) ∧
    (State.reset.setSt 1#8).st.toNat = 1 ∧ State.reset.soundOn = false :=
  ⟨⟨_, rfl, by decide +kernel⟩, ⟨_, rfl, by decide +kernel⟩, by decide, by decide⟩

/-- LoadCopiesTheImageOrRejectsIt: the longest image and one byte more, with a byte index. -/
theorem test_witness_load : (List.replicate 3584 0xAA#8).length ≤ 3584 ∧
    3583 < (List.replicate 3584 0xAA#8).length ∧ 3584 < (List.replicate 3585 0xAA#8).length := by
  simp only [List.length_replicate]
  decide

/-- FaultsArePrecise: a STEP that raises, for each cause, with the record's data address. -/
theorem test_witness_each_cause :
    ([at_ 0x200#16 0x00#8 0x00#8, at_ 0x200#16 0x00#8 0xEE#8,
      (at_ 0x200#16 0x23#8 0x00#8).setCalls State.reset.stack 16,
      (at_ 0x200#16 0xF0#8 0x33#8).setI 0xFFE#16, State.reset.setPc 0xFFF#16].map fun s =>
        match s.fault, step s with
        | .none, .next t => t.fault
        | _, _ => .none) =
    [.halted .unknownInstruction 0x200#16 0x0000#16 0#16,
      .halted .stackUnderflow 0x200#16 0x00EE#16 0#16,
      .halted .stackOverflow 0x200#16 0x2300#16 0#16,
      .halted .dataAddressOutOfRange 0x200#16 0xF033#16 0x1000#16,
      .halted .fetchAddressOutOfRange 0xFFF#16 0#16 0#16] := by decide +kernel

/-- FaultCauseIsTheFirstThatHolds: a state for each cause, and one for none. -/
theorem test_witness_expected_cause :
    [at_ 0x200#16 0x00#8 0x00#8, at_ 0x200#16 0x00#8 0xEE#8,
      (at_ 0x200#16 0x23#8 0x00#8).setCalls State.reset.stack 16,
      (at_ 0x200#16 0xF0#8 0x33#8).setI 0xFFE#16, State.reset.setPc 0xFFF#16,
      at_ 0xFFE#16 0x1F#8 0xFE#8].map expectedCause =
    [some .unknownInstruction, some .stackUnderflow, some .stackOverflow,
      some .dataAddressOutOfRange, some .fetchAddressOutOfRange, none] := by decide +kernel

/-- StepKeepsTheInvariant, EveryRunKeepsTheInvariant: a state with a listed byte, a return address
in use and a STEP that answers. -/
theorem test_witness_invariant : ∃ s t : State, s.Inv ∧ s.mem ≠ [] ∧ s.sp = 16 ∧
    step s = .next t ∧ runOps [.step, .tick] s = .next t.tick := by
  refine ⟨(at_ 0xFFE#16 0x00#8 0xEE#8).setCalls (Vector.replicate 16 0x1000#16) 16,
    (at_ 0x1000#16 0x00#8 0x00#8).setMem (at_ 0xFFE#16 0x00#8 0xEE#8).mem |>.setCalls
      (Vector.replicate 16 0x1000#16) 15, ⟨?_, ?_, ?_, ?_⟩, ?_, ?_, ?_, ?_⟩
  all_goals first
    | decide +kernel
    | rfl
    | exact trivial

/-- EachInstructionLeavesPcAsListed, OnlyListedRegistersChange,
EachStatePieceHasOnlyItsWriters: an instruction that completes. -/
theorem test_witness_completes : ∃ t : State, State.reset.fault = .none ∧
    exec (.addReg 1 2) State.reset = .next t ∧ t.fault = .none ∧
    (3 : Reg) ∉ writesOf State.reset (.addReg 1 2) :=
  ⟨_, rfl, rfl, rfl, by decide⟩

/-- OnlyListedRegistersMatter: registers that differ where ADD V1, V2 reads nothing. -/
theorem test_witness_other_registers : ∃ v : Vector Byte 16, v ≠ State.reset.v ∧
    ∀ r ∈ readsOf (.addReg 1 2), (State.reset.setV v).reg r = State.reset.reg r :=
  ⟨(regs [(3, 0xEE), (15, 0xEE)]).v, by decide +kernel, by decide +kernel⟩

/-- SoundTimerIsReadByNoInstruction and StaleStackEntriesAreUnreadable: a STEP that answers, and
stacks that differ above SP. -/
theorem test_witness_stale : (∃ t, step (nested 1) = .next t) ∧
    SameButStaleEntries (nested 1) ((nested 1).setCalls ((nested 1).stack.set 1 0xBEEF#16) 1) ∧
    nested 1 ≠ (nested 1).setCalls ((nested 1).stack.set 1 0xBEEF#16) 1 :=
  ⟨⟨_, rfl⟩, ⟨rfl, by decide +kernel⟩, by decide +kernel⟩

/-- CanonicalMemoriesAreEqualWhenTheyReadTheSame: a memory with a listed byte, and the same reached
by other writes. -/
theorem test_witness_memories : ∃ m m' : Memory,
    m = Memory.writeBytes Config.font [] 0x300 [2#8, 0#8, 1#8] ∧
    m' = Memory.writeBytes Config.font (Memory.write Config.font [] 0x301 9#8) 0x300 [2#8, 0#8, 1#8] ∧
    m ≠ [] ∧ m.wf Config.font ∧ m'.wf Config.font ∧
    ∀ a, a ≤ 0xFFF → m.read Config.font a = m'.read Config.font a := by
  refine ⟨_, _, rfl, rfl, by decide +kernel, by decide +kernel, by decide +kernel, fun a _ => ?_⟩
  have h : Memory.writeBytes Config.font [] 0x300 [2#8, 0#8, 1#8] =
      Memory.writeBytes Config.font (Memory.write Config.font [] 0x301 9#8) 0x300 [2#8, 0#8, 1#8] := by
    decide +kernel
  rw [h]

/-- LdFPointsAtTheGlyphOfTheFont: a FONT that is not the default, in place, and the last digit. -/
theorem test_witness_font : ∃ s : State, s.font ≠ Config.font ∧ val s 10 % 16 = 15 ∧
    ∀ a, ∀ h : a < 80, s.readByte a = s.font[a] :=
  ⟨(State.construct (Vector.replicate 80 0xAA#8)).setReg 10 0x2F#8, by decide +kernel,
    by decide +kernel, by decide +kernel⟩

/-- A RESET reloads the machine's own FONT over what a program stored there (20_memory.md R59). -/
theorem test_reset_reloads_font :
    ((State.construct (Vector.replicate 80 0xAA#8)).storeBytes 0x04E [1#8, 2#8, 3#8]).hostReset.readBytes
      0x04E 3 = [0xAA#8, 0xAA#8, 0x00#8] := by decide +kernel

end Sys2Proof.Tests
end

section
/-! The instruction cycle, one equation a branch (30_encoding.md R70): what STEP answers on a halted
machine, at a pc past the last word, at a word of no row, and at a word that decodes. -/

namespace Sys2Proof.Machine

variable {s : State}

/-- The fetched word, from its value as a number: that value is below 2 ^ 16. -/
theorem State.ofNat_wordAtPc (s : State) :
    BitVec.ofNat 16 s.wordAtPc = s.readWord s.pc.toNat := by
  rw [← s.readWord_pc, BitVec.ofNat_toNat, BitVec.setWidth_eq]

theorem decodes_wordAtPc_iff {i : Instr} :
    Claims.Decodes s.wordAtPc i ↔ decodeWord (s.readWord s.pc.toNat) = some i := by
  rw [Claims.Decodes, s.ofNat_wordAtPc]

theorem step_of_halted (h : s.fault ≠ .none) : step s = .next s := by
  obtain ⟨-, hstep⟩ | ⟨hf, -⟩ | ⟨hf, -⟩ | ⟨hf, -⟩ := step_cases s
  · exact hstep
  all_goals exact absurd hf h

theorem step_of_pc_out_of_range (hf : s.fault = .none) (hpc : 0xFFE < s.pc.toNat) :
    step s = .next (s.faultAt .fetchAddressOutOfRange s.pc 0#16 0#16) := by
  obtain ⟨h, -⟩ | ⟨-, -, hstep⟩ | ⟨-, h, -⟩ | ⟨-, h, -⟩ := step_cases s
  · exact absurd hf h
  · exact hstep
  all_goals exact absurd hpc (Nat.not_lt.2 h)

theorem step_of_unknown_word (hf : s.fault = .none) (hpc : s.pc.toNat ≤ 0xFFE)
    (hd : decodeWord (s.readWord s.pc.toNat) = none) :
    step s = .next (s.faultAt .unknownInstruction s.pc (s.readWord s.pc.toNat) 0#16) := by
  obtain ⟨h, -⟩ | ⟨-, h, -⟩ | ⟨-, -, -, hstep⟩ | ⟨-, -, i, hi, -⟩ := step_cases s
  · exact absurd hf h
  · exact absurd h (Nat.not_lt.2 hpc)
  · exact hstep
  · exact absurd (hd.symm.trans hi) (Option.some_ne_none i).symm

theorem step_of_decoded {i : Instr} (hf : s.fault = .none) (hpc : s.pc.toNat ≤ 0xFFE)
    (hd : decodeWord (s.readWord s.pc.toNat) = some i) : step s = exec i s.advance := by
  obtain ⟨h, -⟩ | ⟨-, h, -⟩ | ⟨-, -, h, -⟩ | ⟨-, -, j, hj, hstep⟩ := step_cases s
  · exact absurd hf h
  · exact absurd h (Nat.not_lt.2 hpc)
  · exact absurd (hd.symm.trans h) (Option.some_ne_none i)
  · rw [hstep, Option.some.inj (hj.symm.trans hd)]

/-- Settles O6: each clause is STEP's equation for its branch; the records that `faultAt` and
`advance` build are the statement's own. -/
theorem stepIsTheInstructionCycle : Obligations.StepIsTheInstructionCycle := by
  intro s
  refine ⟨step_of_halted, step_of_pc_out_of_range, fun hf hpc hd => ?_, fun i hf hpc hd => ?_⟩
  · rw [s.ofNat_wordAtPc] at hd ⊢
    exact step_of_unknown_word hf hpc hd
  · exact step_of_decoded hf hpc (decodes_wordAtPc_iff.1 hd)

end Sys2Proof.Machine
end

section
/-! The words of the instructions (30_encoding.md R74, R79): what the decoder reads from an
instruction's own encoding, and the numbers that the statements write for a word. -/

namespace Sys2Proof

open Claims

/-- The decoder reads an instruction back from its own word: the group is the word's highest nibble,
and within a group the sub-opcode is the fixed field of the format. -/
theorem decodeWord_encode : ∀ i : Instr, decodeWord (encode i) = some i
  | .cls | .ret => by decide
  | .jp _ | .call _ | .ldI _ | .jpV0 _ => by simp [encode, decodeWord]
  | .seByte _ _ | .sneByte _ _ | .ldByte _ _ | .addByte _ _ | .rnd _ _ => by
    simp [encode, decodeWord]
  | .seReg _ _ | .sneReg _ _ | .drw _ _ _ => by simp [encode, decodeWord]
  | .ldReg _ _ | .orReg _ _ | .andReg _ _ | .xorReg _ _ | .addReg _ _ | .subReg _ _ | .shr _ _
  | .subnReg _ _ | .shl _ _ => by simp [encode, decodeWord, decodeGroup8]
  | .skp _ | .sknp _ => by simp [encode, decodeWord, decodeGroupE]
  | .ldVxDt _ | .ldVxK _ | .ldDtVx _ | .ldStVx _ | .addIVx _ | .ldFVx _ | .ldBVx _
  | .storeRegs _ | .loadRegs _ => by simp [encode, decodeWord, decodeGroupF]

theorem ofNat_eq_encode {w : Nat} {i : Instr} (h : (encode i).toNat = w) :
    BitVec.ofNat 16 w = encode i := by
  rw [← h, BitVec.ofNat_toNat, BitVec.setWidth_eq]

theorem decodes_of_encode_toNat {w : Nat} {i : Instr} (h : (encode i).toNat = w) :
    Decodes w i := by
  rw [Decodes, ofNat_eq_encode h, decodeWord_encode]

end Sys2Proof
end

section
/-! What a write may change, as a frame: each setter keeps a frame whose footprint lists its field;
and a fault taken in a meaning (60_exceptions.md R204). -/

namespace Sys2Proof.Claims

open Machine

variable {f : Footprint} {s t : State}

theorem Frame.refl (f : Footprint) (s : State) : Frame f s s := by
  simp [Frame]

theorem Frame.setPc (hpc : f.pc = true) (h : Frame f s t) (a : Word) : Frame f s (t.setPc a) := by
  obtain ⟨hreg, -, hrest⟩ := h
  exact ⟨hreg, by simp [hpc], hrest⟩

theorem Frame.setCalls (hcalls : f.calls = true) (h : Frame f s t) (stack : Vector Word 16)
    (sp : Fin 17) : Frame f s (t.setCalls stack sp) := by
  obtain ⟨hreg, hpc, hi, -, hrest⟩ := h
  exact ⟨hreg, hpc, hi, by simp [hcalls], hrest⟩

theorem Frame.setDisp (hdisp : f.disp = true) (h : Frame f s t) (d : Display) :
    Frame f s (t.setDisp d) := by
  obtain ⟨hreg, hpc, hi, hcalls, hdt, hst, -, hrest⟩ := h
  exact ⟨hreg, hpc, hi, hcalls, hdt, hst, by simp [hdisp], hrest⟩

theorem Frame.skipIf (hpc : f.pc = true) (h : Frame f s t) (c : Bool) :
    Frame f s (t.skipIf c) := by
  cases c with
  | false => exact h
  | true => exact h.setPc hpc _

/-- `raise` records the instruction's own encoding, so the word may be written as its number. -/
theorem raised_raise {w : Nat} {i : Instr} (h : (encode i).toNat = w) (cause : Fault)
    (daddr : Word) (s : State) : Raised cause w daddr s (s.raise cause i daddr) := by
  rw [Raised, ofNat_eq_encode h]
  rfl

end Sys2Proof.Claims
end

section
/-! Control flow (40_control_flow.md): what CLS, RET, the jumps, CALL and the skips answer. -/

namespace Sys2Proof.Machine

open Claims

variable {s : State}

/-! ### Clearing the display -/

/-- Settles O8: the display CLS writes has no pixel set, and it writes nothing else. -/
theorem clsClearsEveryPixel : Obligations.ClsClearsEveryPixel := fun s =>
  ⟨decodes_of_encode_toNat rfl, s.setDisp Display.clear, rfl, Display.pixel_clear,
    (Frame.refl _ s).setDisp rfl _⟩

/-! ### The call stack -/

theorem State.pop_of_pos (h : 0 < s.sp.val) :
    s.pop = some (s.stack[s.sp.val - 1], s.setCalls s.stack ⟨s.sp.val - 1, by omega⟩) :=
  dif_pos h

theorem State.push_of_lt (h : s.sp.val < 16) (a : Word) :
    s.push a = some (s.setCalls (s.stack.set s.sp.val a) ⟨s.sp.val + 1, by omega⟩) :=
  dif_pos h

theorem exec_ret_of_pos (h : 0 < s.sp.val) :
    exec .ret s = .next
      ((s.setCalls s.stack ⟨s.sp.val - 1, by omega⟩).setPc s.stack[s.sp.val - 1]) := by
  simp only [exec, execRet, State.pop_of_pos h]

theorem exec_ret_of_empty (h : s.sp.val = 0) :
    exec .ret s = .next (s.raise .stackUnderflow .ret 0#16) := by
  simp only [exec, execRet, State.pop_none.2 h]

theorem exec_call_of_lt (nnn : Addr) (h : s.sp.val < 16) :
    exec (.call nnn) s = .next
      ((s.setCalls (s.stack.set s.sp.val s.pc) ⟨s.sp.val + 1, by omega⟩).setPc (zext16 nnn)) := by
  simp only [exec, execCall, State.push_of_lt h]

theorem exec_call_of_full (nnn : Addr) (h : s.sp.val = 16) :
    exec (.call nnn) s = .next (s.raise .stackOverflow (.call nnn) 0#16) := by
  simp only [exec, execCall, State.push_none.2 h]

/-- Settles O9: RET pops when an entry is in use and raises when none is. -/
theorem retPopsOrRaisesUnderflow : Obligations.RetPopsOrRaisesUnderflow := by
  intro s
  refine ⟨decodes_of_encode_toNat rfl, fun h => ?_, fun h => ?_⟩
  · exact ⟨_, exec_ret_of_pos h, rfl, rfl, rfl, ((Frame.refl _ s).setCalls rfl _ _).setPc rfl _⟩
  · exact ⟨_, exec_ret_of_empty h, raised_raise rfl ..⟩

/-! ### The jumps -/

theorem zext16_toNat (nnn : Addr) : (zext16 nnn).toNat = nnn.toNat :=
  BitVec.toNat_setWidth_of_le (by decide)

theorem zextByte_toNat (b : Byte) : (zextByte b).toNat = b.toNat :=
  BitVec.toNat_setWidth_of_le (by decide)

/-- A byte plus a 12-bit address does not wrap at 16 bits (40_control_flow.md R109). -/
theorem zextByte_add_zext16_toNat (b : Byte) (nnn : Addr) :
    (zextByte b + zext16 nnn).toNat = b.toNat + nnn.toNat := by
  have hb := b.isLt
  have hn := nnn.isLt
  rw [BitVec.toNat_add, zextByte_toNat, zext16_toNat]
  exact Nat.mod_eq_of_lt (by omega)

/-- Settles O10: the address reaches pc zero-extended. -/
theorem jpSetsPcToTheAddress : Obligations.JpSetsPcToTheAddress := fun nnn s =>
  ⟨decodes_of_encode_toNat (formatA_toNat ..), s.setPc (zext16 nnn), rfl, zext16_toNat nnn,
    (Frame.refl _ s).setPc rfl _⟩

/-- Settles O11: the sum does not wrap, so it is the sum of the two numbers, at most
`0xFF + 0xFFF`. -/
theorem jpV0AddsV0WithNoMask : Obligations.JpV0AddsV0WithNoMask := by
  intro nnn s
  have hsum := zextByte_add_zext16_toNat (s.reg 0) nnn
  have hle : (zextByte (s.reg 0) + zext16 nnn).toNat ≤ 0x10FE := by
    have hb := (s.reg 0).isLt
    have hn := nnn.isLt
    omega
  exact ⟨decodes_of_encode_toNat (formatA_toNat ..), s.setPc _, rfl, hsum, hle,
    (Frame.refl _ s).setPc rfl _⟩

/-- Settles O12: CALL pushes when an entry is free and raises when none is. -/
theorem callPushesOrRaisesOverflow : Obligations.CallPushesOrRaisesOverflow := by
  intro nnn s
  have hword : (encode (.call nnn)).toNat = 0x2000 + nnn.toNat := formatA_toNat ..
  refine ⟨decodes_of_encode_toNat hword, fun h => ?_, fun h => ?_⟩
  · refine ⟨_, exec_call_of_lt nnn h, ?_, rfl, zext16_toNat nnn, fun k hk => ?_,
      ((Frame.refl _ s).setCalls rfl _ _).setPc rfl _⟩
    · exact Vector.getElem_set_self h
    · exact Vector.getElem_set_ne h k.isLt hk.symm
  · exact ⟨_, exec_call_of_full nnn h, raised_raise hword ..⟩

/-! ### The skips -/

theorem skipsWhen_skipIf {c : Bool} {P : Prop} (h : c = true ↔ P) (s : State) :
    SkipsWhen P s (s.skipIf c) := by
  cases c with
  | false => exact ⟨fun hP => absurd (h.2 hP) Bool.false_ne_true, fun _ => rfl⟩
  | true => exact ⟨fun _ => rfl, fun hP => absurd (h.1 rfl) hP⟩

/-- The spec of every skip: a meaning that is one `skipIf` adds 2 to pc exactly under its condition,
and changes nothing else (40_control_flow.md R108). -/
theorem exec_of_skipIf {i : Instr} {c : Bool} {P : Prop} (hexec : exec i s = .next (s.skipIf c))
    (h : c = true ↔ P) :
    ∃ t, exec i s = .next t ∧ SkipsWhen P s t ∧ Frame { pc := true } s t :=
  ⟨_, hexec, skipsWhen_skipIf h s, (Frame.refl _ s).skipIf rfl c⟩

theorem beq_iff_toNat_eq (a b : Byte) : (a == b) = true ↔ a.toNat = b.toNat := by
  rw [beq_iff_eq, BitVec.toNat_inj]

theorem bne_iff_toNat_ne (a b : Byte) : (a != b) = true ↔ a.toNat ≠ b.toNat := by
  rw [bne_iff_ne, ne_eq, ne_eq, BitVec.toNat_inj]

/-- Settles O13: both skips are one `skipIf`, on `Vx = kk` and on `Vx ≠ kk`. -/
theorem byteSkipsCompareWithImmediate : Obligations.ByteSkipsCompareWithImmediate :=
  fun x kk s =>
    ⟨decodes_of_encode_toNat (formatXNN_toNat ..), decodes_of_encode_toNat (formatXNN_toNat ..),
      exec_of_skipIf rfl (beq_iff_toNat_eq (s.reg x) kk),
      exec_of_skipIf rfl (bne_iff_toNat_ne (s.reg x) kk)⟩

/-- Settles O14: both skips are one `skipIf`, on `Vx = Vy` and on `Vx ≠ Vy`. -/
theorem registerSkipsCompareRegisters : Obligations.RegisterSkipsCompareRegisters :=
  fun x y s =>
    ⟨decodes_of_encode_toNat (formatXYN_toNat ..), decodes_of_encode_toNat (formatXYN_toNat ..),
      exec_of_skipIf rfl (beq_iff_toNat_eq (s.reg x) (s.reg y)),
      exec_of_skipIf rfl (bne_iff_toNat_ne (s.reg x) (s.reg y))⟩

end Sys2Proof.Machine
end

section
/-! Register writes (10_state.md R22, R28): what a write to one register, and a result followed by
its flag (41_register_arithmetic.md R133), leave in the register file and in the frame. -/

namespace Sys2Proof.Claims

open Machine

variable {f : Footprint} {s t : State}

theorem Frame.setReg {x : Reg} (hx : x ∈ f.regs) (h : Frame f s t) (b : Byte) :
    Frame f s (t.setReg x b) := by
  obtain ⟨hreg, hrest⟩ := h
  refine ⟨fun r hr => ?_, hrest⟩
  have hne : r ≠ x := fun hrx => hr (hrx ▸ hx)
  rw [t.setReg_reg_other x r b hne, hreg r hr]

theorem Frame.setResultThenFlag {x : Reg} (hx : x ∈ f.regs) (hflag : flagReg ∈ f.regs)
    (h : Frame f s t) (b : Byte) (c : Bool) : Frame f s (t.setResultThenFlag x b c) :=
  (h.setReg hx b).setReg hflag (flagByte c)

theorem val_setResultThenFlag_result {x : Reg} (hx : x ≠ 15) (s : State) (b : Byte) (c : Bool) :
    val (s.setResultThenFlag x b c) x = b.toNat := by
  simp [val, State.setResultThenFlag_reg, flagReg, hx]

theorem val_setResultThenFlag_flag (s : State) (x : Reg) (b : Byte) (c : Bool) :
    val (s.setResultThenFlag x b c) 15 = (flagByte c).toNat := by
  simp [val, State.setResultThenFlag_reg, flagReg]

/-- The words of a format XYN instruction, in the order the statements write their terms. -/
theorem decodes_of_formatXYN {i : Instr} (g n : Nibble) {x y : Reg}
    (h : encode i = formatXYN g x y n) :
    Decodes (4096 * g.toNat + n.toNat + 256 * x.val + 16 * y.val) i := by
  refine decodes_of_encode_toNat ?_
  rw [h, formatXYN_toNat]
  omega

end Sys2Proof.Claims
end

section
/-! Loads, copies, the immediate sum and the bitwise operations (41_register_arithmetic.md R121 to
R126): one write to Vx, and no flag. -/

namespace Sys2Proof.Machine

open Claims

/-- The spec of every instruction that is one register write: Vx gets the byte, and nothing else
changes. -/
theorem exec_of_setReg {s : State} {i : Instr} {x : Reg} {b : Byte}
    (hexec : exec i s = .next (s.setReg x b)) :
    ∃ t, exec i s = .next t ∧ t.reg x = b ∧ Frame { regs := [x] } s t :=
  ⟨_, hexec, s.setReg_reg_same x b, (Frame.refl _ s).setReg List.mem_cons_self b⟩

theorem exec_val_of_setReg {s : State} {i : Instr} {x : Reg} {b : Byte} {n : Nat}
    (hexec : exec i s = .next (s.setReg x b)) (hn : b.toNat = n) :
    ∃ t, exec i s = .next t ∧ val t x = n ∧ Frame { regs := [x] } s t := by
  obtain ⟨t, ht, hreg, hframe⟩ := exec_of_setReg hexec
  exact ⟨t, ht, by rw [val, hreg, hn], hframe⟩

/-- `exec_of_setReg` read bit by bit. -/
theorem exec_bits_of_setReg {s : State} {i : Instr} {x : Reg} {b : Byte} {bit : Nat → Bool}
    (hexec : exec i s = .next (s.setReg x b)) (hbit : ∀ k, b.getLsbD k = bit k) :
    ∃ t, exec i s = .next t ∧ (∀ k, (t.reg x).getLsbD k = bit k) ∧ Frame { regs := [x] } s t := by
  obtain ⟨t, ht, hreg, hframe⟩ := exec_of_setReg hexec
  exact ⟨t, ht, fun k => by rw [hreg, hbit], hframe⟩

/-- Settles O15: each of the three is one write to Vx; the sum of two bytes is taken modulo 256. -/
theorem loadsCopiesAndAddImmediate : Obligations.LoadsCopiesAndAddImmediate :=
  fun x _ kk s =>
    ⟨decodes_of_encode_toNat (formatXNN_toNat ..), decodes_of_encode_toNat (formatXNN_toNat ..),
      decodes_of_formatXYN 8 0 rfl,
      exec_val_of_setReg rfl rfl,
      exec_val_of_setReg rfl (BitVec.toNat_add (s.reg x) kk),
      exec_val_of_setReg rfl rfl⟩

/-- Settles O16: each of the three is one write to Vx, of the bitwise combination of Vx and Vy. -/
theorem bitwiseOpsWriteOnlyTheDestination : Obligations.BitwiseOpsWriteOnlyTheDestination :=
  fun _ _ _ =>
    ⟨decodes_of_formatXYN 8 1 rfl, decodes_of_formatXYN 8 2 rfl, decodes_of_formatXYN 8 3 rfl,
      exec_bits_of_setReg rfl fun _ => BitVec.getLsbD_or,
      exec_bits_of_setReg rfl fun _ => BitVec.getLsbD_and,
      exec_bits_of_setReg rfl fun _ => BitVec.getLsbD_xor⟩

end Sys2Proof.Machine
end

section
/-! The five flag-setting instructions (41_register_arithmetic.md R127 to R131, R133): the result to
Vx, then the flag to VF, both computed from the operands as they were. -/

namespace Sys2Proof.Machine

open Claims

variable {s : State} {i : Instr} {x : Reg} {result flag : Nat}

/-! ### The flags as numbers -/

theorem carryOut_toNat (a b : Byte) :
    (flagByte (carryOut a b)).toNat = if a.toNat + b.toNat ≥ 256 then 1 else 0 := by
  rw [flagByte_toNat, carryOut]
  simp only [decide_eq_true_eq]

theorem noBorrow_toNat (a b : Byte) :
    (flagByte (noBorrow a b)).toNat = if a.toNat ≥ b.toNat then 1 else 0 := by
  rw [flagByte_toNat, noBorrow]
  simp only [decide_eq_true_eq]

/-- A flag that is one bit of a byte. -/
theorem flagByte_getLsbD_toNat (a : Byte) (k : Nat) :
    (flagByte (a.getLsbD k)).toNat = a.toNat / 2 ^ k % 2 := by
  rw [flagByte_toNat, BitVec.getLsbD, ← Nat.toNat_testBit]
  cases a.toNat.testBit k <;> rfl

theorem shiftedOutRight_toNat (a : Byte) :
    (flagByte (shiftedOutRight a)).toNat = a.toNat % 2 := by
  rw [shiftedOutRight, flagByte_getLsbD_toNat, pow_zero, Nat.div_one]

/-- Bit 7 is the highest, so no bit of the quotient by 128 is lost. -/
theorem shiftedOutLeft_toNat (a : Byte) :
    (flagByte (shiftedOutLeft a)).toNat = a.toNat / 128 := by
  have ha := a.isLt
  rw [shiftedOutLeft, flagByte_getLsbD_toNat]
  omega

/-! ### The results as numbers -/

theorem byte_sub_toNat (a b : Byte) : (a - b).toNat = (a.toNat + 256 - b.toNat) % 256 := by
  have hb := b.isLt
  rw [BitVec.toNat_sub]
  omega

theorem byte_shiftRight_one_toNat (a : Byte) : (a >>> 1).toNat = a.toNat / 2 := by
  rw [BitVec.toNat_ushiftRight, Nat.shiftRight_eq_div_pow, pow_one]

theorem byte_shiftLeft_one_toNat (a : Byte) : (a <<< 1).toNat = 2 * a.toNat % 256 := by
  rw [BitVec.toNat_shiftLeft, Nat.shiftLeft_eq, pow_one, Nat.mul_comm]

/-! ### The two writes -/

/-- The instruction answers a next state with the flag in VF, the result in Vx unless Vx is VF, and
nothing else changed. -/
def WritesResultThenFlag (s : State) (i : Instr) (x : Reg) (result flag : Nat) : Prop :=
  ∃ t, exec i s = .next t ∧ (x ≠ 15 → val t x = result) ∧ val t 15 = flag ∧
    Frame { regs := [x, 15] } s t

/-- The spec of every instruction that is one `setResultThenFlag`. -/
theorem writesResultThenFlag_of_exec {b : Byte} {c : Bool}
    (hexec : exec i s = .next (s.setResultThenFlag x b c)) (hb : b.toNat = result)
    (hc : (flagByte c).toNat = flag) : WritesResultThenFlag s i x result flag := by
  have hframe : Frame { regs := [x, 15] } s (s.setResultThenFlag x b c) :=
    (Frame.refl _ s).setResultThenFlag (by simp) (by simp [flagReg]) b c
  refine ⟨_, hexec, fun hx => ?_, ?_, hframe⟩
  · rw [val_setResultThenFlag_result hx, hb]
  · rw [val_setResultThenFlag_flag, hc]

theorem WritesResultThenFlag.flag_eq (h : WritesResultThenFlag s i x result flag) :
    ∃ t, exec i s = .next t ∧ val t 15 = flag := by
  obtain ⟨t, ht, -, hflag, -⟩ := h
  exact ⟨t, ht, hflag⟩

theorem WritesResultThenFlag.result_and_flag_eq (h : WritesResultThenFlag s i x result flag)
    (hx : x ≠ 15) : ∃ t, exec i s = .next t ∧ val t x = result ∧ val t 15 = flag := by
  obtain ⟨t, ht, hresult, hflag, -⟩ := h
  exact ⟨t, ht, hresult hx, hflag⟩

end Sys2Proof.Machine
end

section
/-! What each of the five flag-setting instructions writes, and the statements about them
(41_register_arithmetic.md). -/

namespace Sys2Proof.Machine

open Claims

section
variable (x y : Reg) (s : State)

theorem addReg_writes : WritesResultThenFlag s (.addReg x y) x
    ((val s x + val s y) % 256) (if val s x + val s y ≥ 256 then 1 else 0) :=
  writesResultThenFlag_of_exec rfl (BitVec.toNat_add _ _) (carryOut_toNat _ _)

theorem subReg_writes : WritesResultThenFlag s (.subReg x y) x
    ((val s x + 256 - val s y) % 256) (if val s x ≥ val s y then 1 else 0) :=
  writesResultThenFlag_of_exec rfl (byte_sub_toNat _ _) (noBorrow_toNat _ _)

theorem subnReg_writes : WritesResultThenFlag s (.subnReg x y) x
    ((val s y + 256 - val s x) % 256) (if val s y ≥ val s x then 1 else 0) :=
  writesResultThenFlag_of_exec rfl (byte_sub_toNat _ _) (noBorrow_toNat _ _)

theorem shr_writes : WritesResultThenFlag s (.shr x y) x (val s x / 2) (val s x % 2) :=
  writesResultThenFlag_of_exec rfl (byte_shiftRight_one_toNat _) (shiftedOutRight_toNat _)

theorem shl_writes : WritesResultThenFlag s (.shl x y) x (2 * val s x % 256) (val s x / 128) :=
  writesResultThenFlag_of_exec rfl (byte_shiftLeft_one_toNat _) (shiftedOutLeft_toNat _)

/-- R129, R81: Y has no effect. -/
theorem exec_shr_any_y (y' : Reg) : exec (.shr x y') s = exec (.shr x y) s := rfl

/-- R131, R81: Y has no effect. -/
theorem exec_shl_any_y (y' : Reg) : exec (.shl x y') s = exec (.shl x y) s := rfl

end

/-- Settles O17: ADD's two writes are the sum and the carry. -/
theorem addWritesSumThenCarry : Obligations.AddWritesSumThenCarry :=
  fun x y s => ⟨decodes_of_formatXYN 8 4 rfl, addReg_writes x y s⟩

/-- Settles O18: SUB's two writes are the difference and the no-borrow. -/
theorem subWritesDifferenceThenNoBorrow : Obligations.SubWritesDifferenceThenNoBorrow :=
  fun x y s => ⟨decodes_of_formatXYN 8 5 rfl, subReg_writes x y s⟩

/-- Settles O19: SUBN's two writes are those of SUB with the operands exchanged. -/
theorem subnWritesReverseDifferenceThenNoBorrow :
    Obligations.SubnWritesReverseDifferenceThenNoBorrow :=
  fun x y s => ⟨decodes_of_formatXYN 8 7 rfl, subnReg_writes x y s⟩

/-- Settles O20: SHR's two writes are the half and the old bit 0, and its meaning has no Y. -/
theorem shrHalvesThenOldBitZero : Obligations.ShrHalvesThenOldBitZero := by
  intro x y s
  obtain ⟨t, ht, hresult, hflag, hframe⟩ := shr_writes x y s
  exact ⟨decodes_of_formatXYN 8 6 rfl, t, ht, hresult, hflag,
    fun y' => (exec_shr_any_y x y s y').trans ht, hframe⟩

/-- Settles O21: SHL's two writes are the double and the old bit 7, and its meaning has no Y. -/
theorem shlDoublesThenOldBitSeven : Obligations.ShlDoublesThenOldBitSeven := by
  intro x y s
  obtain ⟨t, ht, hresult, hflag, hframe⟩ := shl_writes x y s
  exact ⟨decodes_of_formatXYN 8 14 rfl, t, ht, hresult, hflag,
    fun y' => (exec_shl_any_y x y s y').trans ht, hframe⟩

/-- Settles O22: at X = F only the flag of the five remains; at Y = F their writes are those for
any Y, computed from the value VF had before. -/
theorem flagIsWrittenLastFromOldOperands : Obligations.FlagIsWrittenLastFromOldOperands := by
  intro x y s
  refine ⟨(addReg_writes 15 y s).flag_eq, (subReg_writes 15 y s).flag_eq,
    (subnReg_writes 15 y s).flag_eq, (shr_writes 15 y s).flag_eq, (shl_writes 15 y s).flag_eq,
    fun hx => ?_⟩
  exact ⟨(addReg_writes x 15 s).result_and_flag_eq hx, (subReg_writes x 15 s).result_and_flag_eq hx,
    (subnReg_writes x 15 s).result_and_flag_eq hx, (shr_writes x 15 s).result_and_flag_eq hx,
    (shl_writes x 15 s).result_and_flag_eq hx⟩

end Sys2Proof.Machine
end

section
/-! Frames and words of the memory, index and register-block family (42_memory_index.md): what a
write to I, a block store and a block load leave unchanged, and the numbers that the statements
write for a word of format XNN. -/

namespace Sys2Proof.Claims

open Machine

variable {f : Footprint} {s t : State}

theorem Frame.setI (hi : f.i = true) (h : Frame f s t) (a : Word) : Frame f s (t.setI a) := by
  obtain ⟨hreg, hpc, -, hrest⟩ := h
  exact ⟨hreg, hpc, by simp [hi], hrest⟩

/-- The stored block lies in the footprint's part of memory. -/
theorem Frame.storeBytes {a : Nat} {bs : List Byte} (hbase : f.base ≤ a)
    (hlen : a + bs.length ≤ f.base + f.len) (h : Frame f s t) : Frame f s (t.storeBytes a bs) := by
  obtain ⟨hreg, hpc, hi, hcalls, hdt, hst, hdisp, hdraws, hmem, hrest⟩ := h
  refine ⟨hreg, hpc, hi, hcalls, hdt, hst, hdisp, hdraws, fun c hc => ?_, hrest⟩
  rw [t.storeBytes_readByte, if_neg (by omega), hmem c hc]

theorem Frame.loadUpTo {x : Reg} (hx : ∀ r, r ≤ x → r ∈ f.regs) (h : Frame f s t) :
    Frame f s (t.loadUpTo x) := by
  obtain ⟨hreg, hrest⟩ := h
  refine ⟨fun r hr => ?_, hrest⟩
  rw [t.loadUpTo_reg x r, if_neg (mt (hx r) hr), hreg r hr]

/-- The word of a format XNN instruction, in the order the statements write its terms. -/
theorem encode_toNat_of_formatXNN {i : Instr} (g : Nibble) (kk : Byte) {x : Reg}
    (h : encode i = formatXNN g x kk) :
    (encode i).toNat = 4096 * g.toNat + kk.toNat + 256 * x.val := by
  rw [h, formatXNN_toNat]
  omega

end Sys2Proof.Claims
end

section
/-! The data access at I (20_memory.md R53): in range the instruction goes on; out of range it
raises DataAddressOutOfRange with the first offending address. -/

namespace Sys2Proof.Machine

open Claims

variable {s goOn : State} {i : Instr} {n : Nat}

theorem firstOffending_eq_ofNat (a : Word) :
    firstOffending a = BitVec.ofNat 16 (max a.toNat 0x1000) := by
  rw [← firstOffending_toNat, BitVec.ofNat_toNat, BitVec.setWidth_eq]

theorem exec_of_dataInRange (hexec : exec i s = .next (s.dataAccess i n goOn))
    (h : DataInRange n s) : exec i s = .next goOn := by
  unfold DataInRange at h
  rw [hexec, s.dataAccess_inRange i n goOn (by omega)]

/-- Every data access out of range answers the same fault, whatever the instruction goes on with. -/
theorem raised_of_dataOutOfRange {w : Nat} (hexec : exec i s = .next (s.dataAccess i n goOn))
    (hword : (encode i).toNat = w) (h : DataOutOfRange n s) :
    ∃ t, exec i s = .next t ∧
      Raised .dataAddressOutOfRange w (BitVec.ofNat 16 (max s.i.toNat 0x1000)) s t := by
  obtain ⟨hpos, hout⟩ := h
  rw [hexec, s.dataAccess_outOfRange i n goOn ⟨hpos, by omega⟩, firstOffending_eq_ofNat]
  exact ⟨_, rfl, raised_raise hword ..⟩

/-- A byte read inside a block just stored (20_memory.md R62). -/
theorem State.storeBytes_readByte_add (s : State) (a : Nat) {bs : List Byte} {k : Nat}
    (hk : k < bs.length) : (s.storeBytes a bs).readByte (a + k) = bs.getD k 0 := by
  rw [s.storeBytes_readByte, if_pos ⟨Nat.le_add_right a k, by omega⟩, Nat.add_sub_cancel_left]

end Sys2Proof.Machine
end

section
/-! What the memory, index, BCD and register-block instructions answer (42_memory_index.md R140 to
R146). -/

namespace Sys2Proof.Machine

open Claims

variable {s : State} {i : Instr}

/-! ### The index register -/

/-- The spec of every instruction that is one write to I. -/
theorem exec_of_setI {a : Word} {n : Nat} (hexec : exec i s = .next (s.setI a))
    (hn : a.toNat = n) :
    ∃ t, exec i s = .next t ∧ t.i.toNat = n ∧ Frame { i := true } s t :=
  ⟨_, hexec, hn, (Frame.refl _ s).setI rfl a⟩

theorem add_zextByte_toNat (a : Word) (b : Byte) :
    (a + zextByte b).toNat = (a.toNat + b.toNat) % 65536 := by
  rw [BitVec.toNat_add, zextByte_toNat]

/-- The sixteen glyphs of five bytes start at 0x000, so no glyph address wraps. -/
theorem glyphAddr_toNat (b : Byte) : (glyphAddr b).toNat = b.toNat % 16 * 5 := by
  simp only [glyphAddr, lowNibble, Config.fontBase, Config.glyphBytes, BitVec.toNat_ofNat]
  omega

/-- Settles O24: each of the three is one write to I. -/
theorem indexRegisterWrites : Obligations.IndexRegisterWrites := by
  intro nnn x s
  obtain ⟨t, hexec, hi, hframe⟩ :=
    exec_of_setI (s := s) (i := .ldFVx x) rfl (glyphAddr_toNat (s.reg x))
  have hle : t.i.toNat ≤ 0x4B := by omega
  exact ⟨decodes_of_encode_toNat (formatA_toNat ..),
    decodes_of_encode_toNat (encode_toNat_of_formatXNN 0xF 0x1E rfl),
    decodes_of_encode_toNat (encode_toNat_of_formatXNN 0xF 0x29 rfl),
    exec_of_setI rfl (zext16_toNat nnn), exec_of_setI rfl (add_zextByte_toNat s.i (s.reg x)),
    t, hexec, hi, hle, hframe⟩

/-! ### Binary-coded decimal -/

theorem bcdDigits_hundreds_toNat (b : Byte) : ((bcdDigits b).getD 0 0).toNat = b.toNat / 100 :=
  Nat.mod_eq_of_lt (by have := b.isLt; omega)

theorem bcdDigits_tens_toNat (b : Byte) : ((bcdDigits b).getD 1 0).toNat = b.toNat / 10 % 10 :=
  Nat.mod_eq_of_lt (by omega)

theorem bcdDigits_ones_toNat (b : Byte) : ((bcdDigits b).getD 2 0).toNat = b.toNat % 10 :=
  Nat.mod_eq_of_lt (by omega)

/-- Settles O25: in range LD B is one store of the three digits. -/
theorem bcdStoresThreeDigits : Obligations.BcdStoresThreeDigits := by
  intro x s
  have hword := encode_toNat_of_formatXNN (i := .ldBVx x) 0xF 0x33 rfl
  refine ⟨decodes_of_encode_toNat hword, fun h => ?_, raised_of_dataOutOfRange rfl hword⟩
  have hread (k : Nat) (hk : k < 3) :
      (s.storeBytes s.i.toNat (bcdDigits (s.reg x))).readByte (s.i.toNat + k) =
        (bcdDigits (s.reg x)).getD k 0 := s.storeBytes_readByte_add _ hk
  refine ⟨_, exec_of_dataInRange rfl h, ?_, ?_, ?_, (Frame.refl _ s).storeBytes le_rfl le_rfl⟩
  · exact (congrArg BitVec.toNat (hread 0 (by decide))).trans (bcdDigits_hundreds_toNat _)
  · exact (congrArg BitVec.toNat (hread 1 (by decide))).trans (bcdDigits_tens_toNat _)
  · exact (congrArg BitVec.toNat (hread 2 (by decide))).trans (bcdDigits_ones_toNat _)

/-! ### The register block -/

/-- Settles O26: in range LD [I], Vx is one store of the values of V0..Vx. -/
theorem registerBlockStore : Obligations.RegisterBlockStore := by
  intro x s
  have hword := encode_toNat_of_formatXNN (i := .storeRegs x) 0xF 0x55 rfl
  have hlen := s.regsUpTo_length x
  refine ⟨decodes_of_encode_toNat hword, fun h => ?_, raised_of_dataOutOfRange rfl hword⟩
  refine ⟨_, exec_of_dataInRange rfl h, fun k hk => ?_,
    (Frame.refl _ s).storeBytes le_rfl (by rw [hlen])⟩
  have hlt : k.val < (s.regsUpTo x).length := hlen ▸ Nat.lt_succ_of_le hk
  rw [s.storeBytes_readByte_add _ hlt, s.regsUpTo_getD x k.val hk]

/-- Settles O27: in range LD Vx, [I] replaces V0..Vx, the registers of the footprint, and no
other. -/
theorem registerBlockLoad : Obligations.RegisterBlockLoad := by
  intro x s
  have hword := encode_toNat_of_formatXNN (i := .loadRegs x) 0xF 0x65 rfl
  refine ⟨decodes_of_encode_toNat hword, fun h => ?_, raised_of_dataOutOfRange rfl hword⟩
  refine ⟨_, exec_of_dataInRange rfl h, fun k hk => ?_,
    (Frame.refl _ s).loadUpTo fun r hr => by simp [hr]⟩
  rw [s.loadUpTo_reg x k, if_pos hk]

end Sys2Proof.Machine
end

section
/-! Drawing (43_display.md R160): the sprite that DRW reads at I has a one bit on a pixel exactly
where `SpriteOn` says, and so the pixels and the flag that DRW leaves are the statement's. -/

namespace Sys2Proof.Machine

open Claims

/-! ### The pixels under one bits -/

theorem rowCovers_iff (b : Byte) (ox : Nat) (px : Fin 64) :
    rowCovers b ox px = true ↔
      ∃ col < 8, b.getLsbD (7 - col) = true ∧ px.val = (ox + col) % 64 := by
  simp [rowCovers, spriteColumn, Fin.ext_iff]

section
variable (s : State)

theorem covers_readBytes_iff (ox oy n : Nat) (px : Fin 64) (py : Fin 32) :
    Covers (s.readBytes s.i.toNat n) ox oy 0 px py ↔ SpriteOn s ox oy n px py := by
  simp only [Covers, State.readBytes_length, State.readBytes_getElem, rowCovers_iff, spriteRow,
    Nat.zero_add, Fin.ext_iff]
  constructor
  · rintro ⟨row, hrow, ⟨col, hcol, hbit, hx⟩, hy⟩
    exact ⟨row, col, hrow, hcol, hbit, hx, hy⟩
  · rintro ⟨row, col, hrow, hcol, hbit, hx, hy⟩
    exact ⟨row, hrow, ⟨col, hcol, hbit, hx⟩, hy⟩

/-! ### The drawing -/

variable (x y : Reg) (n : Nibble)

/-- A sprite has at most 15 rows, so no row wraps onto another and `Drawing.rows_spec` applies
(43_display.md R161). -/
theorem spriteBytes_length_le : (s.readBytes s.i.toNat n.toNat).length ≤ 32 := by
  have hn := n.isLt
  rw [s.readBytes_length]
  omega

theorem drawSprite_pixel (px : Fin 64) (py : Fin 32) :
    (SpriteOn s (val s x) (val s y) n.toNat px py →
      (s.drawSprite x y n).disp.pixel px py = !s.disp.pixel px py) ∧
    (¬ SpriteOn s (val s x) (val s y) n.toNat px py →
      (s.drawSprite x y n).disp.pixel px py = s.disp.pixel px py) := by
  rw [← covers_readBytes_iff]
  exact (Drawing.rows_spec _ _ _ _ _ (spriteBytes_length_le s n)).1 px py

theorem drawSprite_collided_iff :
    (s.drawSprite x y n).collided = true ↔
      ∃ px py, SpriteOn s (val s x) (val s y) n.toNat px py ∧ s.disp.pixel px py = true := by
  simp only [← covers_readBytes_iff]
  exact (Drawing.rows_spec _ _ _ _ _ (spriteBytes_length_le s n)).2.trans
    (or_iff_right Bool.false_ne_true)

/-! ### The instruction -/

/-- No row is read, or every row lies in memory: DRW writes the display, then the flag. -/
theorem exec_drw_of_inRange (h : n.toNat = 0 ∨ DataInRange n.toNat s) :
    exec (.drw x y n) s = .next
      ((s.setDisp (s.drawSprite x y n).disp).setFlag (s.drawSprite x y n).collided) := by
  have hrange : n.toNat = 0 ∨ s.i.toNat + n.toNat - 1 ≤ 0xFFF := by
    unfold DataInRange at h
    omega
  exact congrArg Host.Outcome.next (s.dataAccess_inRange (.drw x y n) n.toNat _ hrange)

theorem val_setFlag (c : Bool) : val (s.setFlag c) 15 = if c then 1 else 0 := by
  rw [← flagByte_toNat]
  exact congrArg BitVec.toNat (s.setReg_reg_same flagReg (flagByte c))

end

/-- Settles O30: in range DRW leaves the drawing's display, and VF is whether it collided. -/
theorem drawXorsEveryPixelAndReportsCollision :
    Obligations.DrawXorsEveryPixelAndReportsCollision := by
  intro x y n s
  have hword : (encode (.drw x y n)).toNat = 0xD000 + 256 * x.val + 16 * y.val + n.toNat :=
    formatXYN_toNat ..
  refine ⟨decodes_of_encode_toNat hword, fun h => ?_, raised_of_dataOutOfRange rfl hword⟩
  have hcollided := drawSprite_collided_iff s x y n
  refine ⟨_, exec_drw_of_inRange s x y n h, drawSprite_pixel s x y n, fun hhit => ?_,
    fun hmiss => ?_, ((Frame.refl _ s).setDisp rfl _).setReg (by simp [flagReg]) _⟩
  · rw [val_setFlag, if_pos (hcollided.2 hhit)]
  · rw [val_setFlag, if_neg (mt hcollided.1 hmiss)]

end Sys2Proof.Machine
end

section
/-! The timers (44_input_timers.md R172, R174, R175, R177): what a write to DT or ST leaves
unchanged, the moves between a register and a timer, and TICK. -/

namespace Sys2Proof.Claims

open Machine

variable {f : Footprint} {s t : State}

theorem Frame.setDt (hdt : f.dt = true) (h : Frame f s t) (b : Byte) : Frame f s (t.setDt b) := by
  obtain ⟨hreg, hpc, hi, hcalls, -, hrest⟩ := h
  exact ⟨hreg, hpc, hi, hcalls, by simp [hdt], hrest⟩

theorem Frame.setSt (hst : f.st = true) (h : Frame f s t) (b : Byte) : Frame f s (t.setSt b) := by
  obtain ⟨hreg, hpc, hi, hcalls, hdt, -, hrest⟩ := h
  exact ⟨hreg, hpc, hi, hcalls, hdt, by simp [hst], hrest⟩

end Sys2Proof.Claims

namespace Sys2Proof.Machine

open Claims

/-- Settles O36: each of the three is one write, of a register or of a timer; the sound output is
read from the ST just written. -/
theorem timerRegisterMoves : Obligations.TimerRegisterMoves := fun x s =>
  ⟨decodes_of_encode_toNat (encode_toNat_of_formatXNN 0xF 0x07 rfl),
    decodes_of_encode_toNat (encode_toNat_of_formatXNN 0xF 0x15 rfl),
    decodes_of_encode_toNat (encode_toNat_of_formatXNN 0xF 0x18 rfl),
    exec_of_setReg rfl,
    ⟨s.setDt (s.reg x), rfl, rfl, (Frame.refl _ s).setDt rfl _⟩,
    ⟨s.setSt (s.reg x), rfl, rfl, (s.setSt (s.reg x)).soundOn_iff, (Frame.refl _ s).setSt rfl _⟩⟩

/-- Settles O37: TICK writes the two timers, each counted down. -/
theorem tickCountsBothTimersDown : Obligations.TickCountsBothTimersDown := fun s =>
  ⟨s.tick, rfl, countDown_toNat s.dt, countDown_toNat s.st, rfl⟩

end Sys2Proof.Machine
end

section
/-! Keys (44_input_timers.md R170, R171, R173, R176): the skips on a key, and the key wait. -/

namespace Sys2Proof.Machine

open Claims

variable {s : State}

/-! ### The skips on a key -/

theorem State.pressed_lowNibble_iff (s : State) (b : Byte) (c : Bool) :
    s.pressed (lowNibble b) = c ↔ ∃ k : Fin 16, k.val = b.toNat % 16 ∧ s.pressed k = c := by
  constructor
  · exact fun h => ⟨lowNibble b, rfl, h⟩
  · rintro ⟨k, hk, hc⟩
    have hkey : k = lowNibble b := Fin.ext hk
    rwa [← hkey]

/-- Settles O33: both skips are one `skipIf`, on the key of the low nibble and on its negation. -/
theorem keySkipsTestTheLowNibblesKey : Obligations.KeySkipsTestTheLowNibblesKey := by
  intro x s
  have hpressed := s.pressed_lowNibble_iff (s.reg x) true
  have hreleased := s.pressed_lowNibble_iff (s.reg x) false
  rw [← Bool.not_eq_true'] at hreleased
  exact ⟨decodes_of_encode_toNat (encode_toNat_of_formatXNN 0xE 0x9E rfl),
    decodes_of_encode_toNat (encode_toNat_of_formatXNN 0xE 0xA1 rfl),
    exec_of_skipIf rfl hpressed, exec_of_skipIf rfl hreleased⟩

/-! ### The key wait -/

/-- The other direction of `State.firstPressed_some`: there is only one lowest pressed key. -/
theorem State.firstPressed_of_lowest {k : Fin 16} (hk : s.pressed k = true)
    (hlow : ∀ j, j < k → s.pressed j = false) : s.firstPressed = some k := by
  cases hfirst : s.firstPressed with
  | none => exact absurd (State.firstPressed_none.1 hfirst k) (ne_false_of_eq_true hk)
  | some j =>
    obtain ⟨hj, hjlow⟩ := State.firstPressed_some hfirst
    obtain hlt | rfl | hgt := lt_trichotomy j k
    · exact absurd (hlow j hlt) (ne_false_of_eq_true hj)
    · rfl
    · exact absurd (hjlow k hgt) (ne_false_of_eq_true hk)

theorem exec_ldVxK_of_some (x : Reg) {k : Fin 16} (h : s.firstPressed = some k) :
    exec (.ldVxK x) s = .next (s.setReg x (BitVec.ofNat 8 k.val)) := by
  simp only [exec, execLdVxK, h]

theorem exec_ldVxK_of_none (x : Reg) (h : s.firstPressed = none) :
    exec (.ldVxK x) s = .next s.rewind := by
  simp only [exec, execLdVxK, h]

theorem keyByte_toNat (k : Fin 16) : (BitVec.ofNat 8 k.val).toNat = k.val :=
  Nat.mod_eq_of_lt (by omega)

/-- Settles O34: the scan answers the lowest pressed key, or none, and the meaning follows it. -/
theorem keyWaitTakesTheLowestKeyOrRewinds : Obligations.KeyWaitTakesTheLowestKeyOrRewinds := by
  intro x s
  refine ⟨decodes_of_encode_toNat (encode_toNat_of_formatXNN 0xF 0x0A rfl),
    fun k hk hlow => ?_, fun hnone => ?_⟩
  · have hfirst := State.firstPressed_of_lowest hk hlow
    exact exec_val_of_setReg (exec_ldVxK_of_some x hfirst) (keyByte_toNat k)
  · exact ⟨_, exec_ldVxK_of_none x (State.firstPressed_none.2 hnone), rfl⟩

/-! ### The stall -/

/-- `step_of_decoded` from the number that the two bytes at pc make. -/
theorem step_of_wordAtPc {i : Instr} (hf : s.fault = .none) (hpc : s.pc.toNat ≤ 0xFFE)
    (hword : (encode i).toNat = s.wordAtPc) : step s = exec i s.advance :=
  step_of_decoded hf hpc (decodes_wordAtPc_iff.1 (decodes_of_encode_toNat hword))

/-- Going back undoes the advance of the cycle, whatever pc is (R176). -/
theorem State.rewind_advance (s : State) : s.advance.rewind = s := by
  simp [State.rewind, State.advance, State.setPc]

/-- After a KEY press the key pressed is the lowest, since it is the only one. -/
theorem State.keyEvent_firstPressed (h : ∀ j, s.pressed j = false) (k : Fin 16) :
    (s.keyEvent k true).firstPressed = some k := by
  refine State.firstPressed_of_lowest ?_ fun j hj => ?_
  · rw [s.keyEvent_pressed, if_pos rfl]
  · rw [s.keyEvent_pressed, if_neg hj.ne, h j]

section
variable (x : Reg) (hf : s.fault = .none) (hpc : s.pc.toNat ≤ 0xFFE)
  (hword : s.wordAtPc = 0xF00A + 256 * x.val) (hreleased : ∀ k, s.pressed k = false)
include hf hpc hword hreleased

theorem step_keyWait_eq_self : step s = .next s := by
  have hencode := encode_toNat_of_formatXNN (i := .ldVxK x) 0xF 0x0A rfl
  have hnone : s.advance.firstPressed = none := State.firstPressed_none.2 hreleased
  rw [step_of_wordAtPc hf hpc (hencode.trans hword.symm), exec_ldVxK_of_none x hnone,
    s.rewind_advance]

/-- KEY changes no byte at pc, so the same key wait is fetched. -/
theorem step_keyWait_after_key (k : Fin 16) :
    step (s.keyEvent k true) =
      .next ((s.keyEvent k true).advance.setReg x (BitVec.ofNat 8 k.val)) := by
  have hencode := encode_toNat_of_formatXNN (i := .ldVxK x) 0xF 0x0A rfl
  have hfirst : (s.keyEvent k true).advance.firstPressed = some k :=
    State.keyEvent_firstPressed hreleased k
  rw [step_of_wordAtPc (s := s.keyEvent k true) hf hpc (hencode.trans hword.symm),
    exec_ldVxK_of_some x hfirst]

end

/-- Settles O35: a key wait with no key pressed is a fixed point of STEP, so the STEPs before the
KEY press drop out of both runs. -/
theorem keyWaitStallsUntilAKeyPress : Obligations.KeyWaitStallsUntilAKeyPress := by
  intro s x n hf hpc hword hreleased
  have hfixed := step_keyWait_eq_self x hf hpc hword hreleased
  refine ⟨?_, fun k => ⟨(s.keyEvent k true).advance.setReg x (BitVec.ofNat 8 k.val), ?_, ?_, rfl⟩⟩
  · rw [← List.append_nil (List.replicate n _), runOps_steps_fixed s hfixed n, runOps]
  · rw [runOps_steps_fixed s hfixed n]
    simp only [runOps, HostOp.apply, step_keyWait_after_key x hf hpc hword hreleased k]
  · rw [val, State.setReg_reg_same, keyByte_toNat]

end Sys2Proof.Machine
end

section
/-! The sound output (10_state.md R38; 44_input_timers.md R178): it is read from ST, which LD ST, Vx
alone of the instructions writes. -/

namespace Sys2Proof.Machine

open Claims

variable {s t : State}

/-! ### ST under the shared operations -/

theorem State.skipIf_st (s : State) (c : Bool) : (s.skipIf c).st = s.st := by
  cases c <;> rfl

theorem State.dataAccess_st (i : Instr) (n : Nat) {s goOn : State} (h : goOn.st = s.st) :
    (s.dataAccess i n goOn).st = s.st := by
  unfold State.dataAccess
  split
  · exact h
  · rfl

theorem exec_ret_st (h : exec .ret s = .next t) : t.st = s.st := by
  obtain hsp | hsp := Nat.eq_zero_or_pos s.sp.val
  · cases (exec_ret_of_empty hsp).symm.trans h
    rfl
  · cases (exec_ret_of_pos hsp).symm.trans h
    rfl

theorem exec_call_st {nnn : Addr} (h : exec (.call nnn) s = .next t) : t.st = s.st := by
  obtain hsp | hsp := (Nat.lt_succ_iff.1 s.sp.isLt).lt_or_eq
  · cases (exec_call_of_lt nnn hsp).symm.trans h
    rfl
  · cases (exec_call_of_full nnn hsp).symm.trans h
    rfl

theorem exec_ldVxK_st {x : Reg} (h : exec (.ldVxK x) s = .next t) : t.st = s.st := by
  cases hfirst : s.firstPressed with
  | none =>
    cases (exec_ldVxK_of_none x hfirst).symm.trans h
    rfl
  | some k =>
    cases (exec_ldVxK_of_some x hfirst).symm.trans h
    rfl

/-! ### The instructions -/

/-- R30, R175: of the instructions LD ST, Vx alone writes ST. -/
theorem exec_st {i : Instr} (hi : ∀ x, i ≠ .ldStVx x) (h : exec i s = .next t) :
    t.st = s.st := by
  cases i with
  | ldStVx x => exact absurd rfl (hi x)
  | ret => exact exec_ret_st h
  | call => exact exec_call_st h
  | ldVxK => exact exec_ldVxK_st h
  | seByte | sneByte | seReg | sneReg | skp | sknp =>
    cases h
    exact s.skipIf_st _
  | drw | ldBVx | storeRegs | loadRegs =>
    cases h
    exact State.dataAccess_st _ _ (by rfl)
  | ldByte | addByte | ldReg | orReg | andReg | xorReg | addReg | subReg | shr | subnReg | shl
  | rnd | cls | jp | jpV0 | ldI | addIVx | ldFVx | ldDtVx | ldVxDt =>
    cases h
    rfl

theorem exec_soundOn_changes {i : Instr} (h : exec i s = .next t) (hne : t.soundOn ≠ s.soundOn) :
    ∃ x, i = .ldStVx x ∧ (t.soundOn = true ↔ val s x ≠ 0) := by
  by_cases hi : ∃ x, i = .ldStVx x
  · obtain ⟨x, rfl⟩ := hi
    cases h
    exact ⟨x, rfl, State.soundOn_iff _⟩
  · have hst : t.st = s.st := exec_st (not_exists.1 hi) h
    exact absurd (by rw [State.soundOn, State.soundOn, hst]) hne

/-! ### TICK -/

theorem State.soundOn_eq_false_iff (s : State) : s.soundOn = false ↔ s.st.toNat = 0 := by
  rw [← Bool.not_eq_true, s.soundOn_iff, not_not]

theorem State.tick_soundOn_eq_false_iff (s : State) :
    s.tick.soundOn = false ↔ s.st.toNat ≤ 1 := by
  have hst : s.tick.st.toNat = s.st.toNat - 1 := countDown_toNat s.st
  rw [s.tick.soundOn_eq_false_iff, hst, Nat.sub_eq_zero_iff_le]

/-- Settles O38: the level is read from ST; among the instructions only LD ST writes it, and TICK
takes it to 0 from 1 at most. -/
theorem soundFollowsTheSoundTimer : Obligations.SoundFollowsTheSoundTimer := by
  refine ⟨State.soundOn_iff, fun i s t => exec_soundOn_changes, fun s => ?_⟩
  rw [s.tick_soundOn_eq_false_iff, s.soundOn_iff, s.soundOn_eq_false_iff]
  omega

end Sys2Proof.Machine
end

section
/-! What the host delivers and reads: a key transition (45_public_accessors.md R192), and the
display, the timers and the fault status as they stand (R193, R195, R196). -/

namespace Sys2Proof.Machine

/-! ### KEY -/

/-- R192: of two transitions of one key only the last counts. -/
theorem State.keyEvent_keyEvent (s : State) (k : Fin 16) (p q : Bool) :
    (s.keyEvent k p).keyEvent k q = s.keyEvent k q :=
  congrArg s.setKeys (Vector.set_set p k.isLt)

/-- Settles O40: KEY is one write into the keys, so a second one to the same key replaces it;
a repeated one is the case q = p. -/
theorem keySetsOneKeyLastWriteWins : Obligations.KeySetsOneKeyLastWriteWins := by
  intro k p q s
  have hpressed := s.keyEvent_pressed k
  have hlast := s.keyEvent_keyEvent k p
  refine ⟨s.keyEvent k p, rfl, ?_, fun j hj => ?_, rfl, ?_, ?_⟩
  · rw [hpressed, if_pos rfl]
  · rw [hpressed, if_neg hj]
  · exact congrArg Host.Outcome.next (hlast p)
  · exact congrArg Host.Outcome.next (hlast q)

/-! ### The reads -/

/-- R193: x is the remainder and y the quotient of the linear index x + y×64 by 64. -/
theorem State.readDisplay_linearIndex (s : State) (x : Fin 64) (y : Fin 32)
    (h : x.val + y.val * 64 < 2048) : s.readDisplay[x.val + y.val * 64] = s.disp.pixel x y := by
  have hcolumn : (x.val + y.val * 64) % 64 = x.val := by omega
  have hrow : (x.val + y.val * 64) / 64 = y.val := by omega
  simp only [State.readDisplay, Vector.getElem_ofFn, hcolumn, hrow]

/-- Settles O41: the snapshot by its linear index, the sound level from ST, and the fields DT, ST
and fault as they are. -/
theorem hostReadsTheState : Obligations.HostReadsTheState := fun s =>
  ⟨s.readDisplay_linearIndex, rfl, rfl, s.soundOn_iff, rfl⟩

end Sys2Proof.Machine
end

section
/-! From a word to its instruction and back (30_encoding.md R74, R81): the encoding of a decoded
instruction is the word it was decoded from. -/

namespace Sys2Proof

variable {w : Word} {i : Instr} {g : Nibble}

/-! ### A word from its group and its fixed fields -/

theorem formatA_of_group (hg : (fieldG w).toNat = g.toNat) : formatA g (fieldNNN w) = w := by
  rw [← BitVec.eq_of_toNat_eq hg, word_eq_formatA]

theorem formatXNN_of_fields {kk : Byte} (hg : (fieldG w).toNat = g.toNat)
    (hkk : (fieldNN w).toNat = kk.toNat) : formatXNN g (fieldX w) kk = w := by
  rw [← BitVec.eq_of_toNat_eq hg, ← BitVec.eq_of_toNat_eq hkk, word_eq_formatXNN]

theorem formatXYN_of_fields {n : Nibble} (hg : (fieldG w).toNat = g.toNat)
    (hn : (fieldN w).toNat = n.toNat) : formatXYN g (fieldX w) (fieldY w) n = w := by
  rw [← BitVec.eq_of_toNat_eq hg, ← BitVec.eq_of_toNat_eq hn, word_eq_formatXYN]

/-! ### The groups with sub-opcodes -/

theorem encode_of_decodeGroup0 (h : decodeGroup0 w = some i) : encode i = w := by
  unfold decodeGroup0 at h
  split_ifs at h with hcls hret
  all_goals cases h
  · exact hcls.symm
  · exact hret.symm

theorem encode_of_decodeGroup8 (hg : (fieldG w).toNat = 0x8)
    (h : decodeGroup8 (fieldX w) (fieldY w) (fieldN w).toNat = some i) : encode i = w := by
  unfold decodeGroup8 at h
  split at h <;> cases h
  all_goals exact formatXYN_of_fields hg ‹_›

theorem encode_of_decodeGroupE (hg : (fieldG w).toNat = 0xE)
    (h : decodeGroupE (fieldX w) (fieldNN w).toNat = some i) : encode i = w := by
  unfold decodeGroupE at h
  split_ifs at h <;> cases h
  all_goals exact formatXNN_of_fields hg ‹_›

theorem encode_of_decodeGroupF (hg : (fieldG w).toNat = 0xF)
    (h : decodeGroupF (fieldX w) (fieldNN w).toNat = some i) : encode i = w := by
  unfold decodeGroupF at h
  split_ifs at h <;> cases h
  all_goals exact formatXNN_of_fields hg ‹_›

/-! ### Every word -/

/-- Every bit of a word that decodes is in the group, an operand or the sub-opcode, so the
instruction's encoding is the word itself. -/
theorem encode_of_decodeWord (h : decodeWord w = some i) : encode i = w := by
  unfold decodeWord at h
  split at h
  -- groups 0, 8, E and F: a sub-opcode; `h_17` is no group of a word
  case h_1 => exact encode_of_decodeGroup0 h
  case h_9 hg => exact encode_of_decodeGroup8 hg h
  case h_15 hg => exact encode_of_decodeGroupE hg h
  case h_16 hg => exact encode_of_decodeGroupF hg h
  case h_17 => cases h
  -- groups 1, 2, A and B: an address
  case h_2 hg | h_3 hg | h_11 hg | h_12 hg =>
    cases h
    exact formatA_of_group hg
  -- groups 3, 4, 6, 7 and C: a register and a byte
  case h_4 hg | h_5 hg | h_7 hg | h_8 hg | h_13 hg =>
    cases h
    exact formatXNN_of_fields hg rfl
  -- group D: two registers and a free nibble
  case h_14 hg =>
    cases h
    exact formatXYN_of_fields hg rfl
  -- groups 5 and 9: two registers and the nibble 0
  case h_6 hg | h_10 hg =>
    obtain ⟨hn, hi⟩ := Option.ite_none_right_eq_some.1 h
    cases hi
    exact formatXYN_of_fields hg (congrArg BitVec.toNat hn)

end Sys2Proof
end

section
/-! Precise faults (60_exceptions.md R204): an instruction either keeps the fault status or is its
own `raise`, and the advance of the cycle drops out of that. -/

namespace Sys2Proof.Machine

variable {s t : State} {i : Instr}

/-- The data address that R204 gives a record of `cause`, with I at `a`. -/
def faultDataAddr (cause : Fault) (a : Word) : Word :=
  if cause = .dataAddressOutOfRange then BitVec.ofNat 16 (max a.toNat 0x1000) else 0

/-- What an instruction can do to the fault status: keep it, or raise with the data address of its
cause. Only the fetch raises FetchAddressOutOfRange. -/
def KeepsFaultOrRaises (i : Instr) (s t : State) : Prop :=
  t.fault = s.fault ∨
    ∃ cause, cause ≠ .fetchAddressOutOfRange ∧ t = s.raise cause i (faultDataAddr cause s.i)

/-! ### The instructions -/

theorem State.skipIf_fault (s : State) (c : Bool) : (s.skipIf c).fault = s.fault := by
  cases c <;> rfl

theorem exec_ldVxK_fault {x : Reg} (h : exec (.ldVxK x) s = .next t) : t.fault = s.fault := by
  cases hfirst : s.firstPressed with
  | none =>
    cases (exec_ldVxK_of_none x hfirst).symm.trans h
    rfl
  | some k =>
    cases (exec_ldVxK_of_some x hfirst).symm.trans h
    rfl

theorem exec_ret_keepsFaultOrRaises (h : exec .ret s = .next t) :
    KeepsFaultOrRaises .ret s t := by
  obtain hsp | hsp := Nat.eq_zero_or_pos s.sp.val
  · cases (exec_ret_of_empty hsp).symm.trans h
    exact .inr ⟨.stackUnderflow, nofun, rfl⟩
  · cases (exec_ret_of_pos hsp).symm.trans h
    exact .inl rfl

theorem exec_call_keepsFaultOrRaises {nnn : Addr} (h : exec (.call nnn) s = .next t) :
    KeepsFaultOrRaises (.call nnn) s t := by
  obtain hsp | hsp := (Nat.lt_succ_iff.1 s.sp.isLt).lt_or_eq
  · cases (exec_call_of_lt nnn hsp).symm.trans h
    exact .inl rfl
  · cases (exec_call_of_full nnn hsp).symm.trans h
    exact .inr ⟨.stackOverflow, nofun, rfl⟩

/-- Every data access, whatever the instruction goes on with in range. -/
theorem dataAccess_keepsFaultOrRaises (i : Instr) (n : Nat) {goOn : State}
    (h : goOn.fault = s.fault) : KeepsFaultOrRaises i s (s.dataAccess i n goOn) := by
  unfold State.dataAccess
  split
  · exact .inl h
  · rw [firstOffending_eq_ofNat]
    exact .inr ⟨.dataAddressOutOfRange, nofun, rfl⟩

/-- The conditions of R201 that an instruction checks: an empty and a full call stack, and a data
access above 0xFFF. -/
theorem exec_keepsFaultOrRaises (h : exec i s = .next t) : KeepsFaultOrRaises i s t := by
  cases i with
  | ret => exact exec_ret_keepsFaultOrRaises h
  | call => exact exec_call_keepsFaultOrRaises h
  | drw | ldBVx | storeRegs | loadRegs =>
    cases h
    exact dataAccess_keepsFaultOrRaises _ _ (by rfl)
  | ldVxK => exact .inl (exec_ldVxK_fault h)
  | seByte | sneByte | seReg | sneReg | skp | sknp =>
    cases h
    exact .inl (s.skipIf_fault _)
  | ldByte | addByte | ldReg | orReg | andReg | xorReg | addReg | subReg | shr | subnReg | shl
  | rnd | cls | jp | jpV0 | ldI | addIVx | ldFVx | ldDtVx | ldStVx | ldVxDt =>
    cases h
    exact .inl rfl

/-! ### The STEP -/

/-- `raise` takes pc back over the advance of the cycle, whatever pc is. -/
theorem State.raise_advance (s : State) (cause : Fault) (i : Instr) (daddr : Word) :
    s.advance.raise cause i daddr =
      { s with fault := .halted cause s.pc (encode i) daddr } := by
  have hpc : s.advance.pc - 2#16 = s.pc := congrArg State.pc s.rewind_advance
  rw [State.raise, hpc]
  rfl

/-- Settles O46: a STEP raises at the fetch, at the decode, or in the instruction; there the record's
word is the instruction's encoding, which is the word fetched. -/
theorem faultsArePrecise : Obligations.FaultsArePrecise := by
  intro s t hf hstep hraised
  obtain ⟨h, -⟩ | ⟨-, -, hfetch⟩ | ⟨-, -, -, hunknown⟩ | ⟨-, -, i, hdecode, hexec⟩ := step_cases s
  · exact absurd hf h
  · cases hfetch.symm.trans hstep
    exact ⟨.fetchAddressOutOfRange, 0, 0, rfl, rfl, rfl⟩
  · cases hunknown.symm.trans hstep
    exact ⟨.unknownInstruction, _, 0, rfl, s.ofNat_wordAtPc.symm, rfl⟩
  · obtain hkept | ⟨cause, hcause, rfl⟩ := exec_keepsFaultOrRaises (hexec.symm.trans hstep)
    · exact absurd (hkept.trans hf) hraised
    · have hword : encode i = BitVec.ofNat 16 s.wordAtPc :=
        (encode_of_decodeWord hdecode).trans s.ofNat_wordAtPc.symm
      exact ⟨cause, encode i, _, s.raise_advance .., by rw [if_neg hcause, hword], rfl⟩

end Sys2Proof.Machine
end

section
/-! The halted machine (60_exceptions.md R205): what LOAD leaves in memory and in the fault status,
and what each host operation does while a fault is recorded. -/

namespace Sys2Proof.Machine

theorem State.load_fault (s : State) (image : List Byte) :
    (s.load image).fault = s.fault := by
  unfold State.load
  split <;> rfl

theorem State.load_readByte (s : State) {image : List Byte} {k : Nat} (h : image.length ≤ 3584)
    (hk : k < image.length) : (s.load image).readByte (0x200 + k) = image[k] := by
  rw [s.load_fits image h, s.storeBytes_readByte_add 0x200 hk, List.getD_eq_getElem image 0 hk]

/-- Settles O45: STEP alone asks for the fault status; the other operations write their own fields,
and only RESET's include it. -/
theorem haltedMachineOnlyStepsStop : Obligations.HaltedMachineOnlyStepsStop := by
  intro s hhalted
  refine ⟨step_of_halted hhalted, ?tick, fun k p => ?key, fun image => ?load, rfl, rfl, rfl,
    s.readDisplay_linearIndex, ⟨s.hostReset, rfl, rfl⟩⟩
  case tick => exact ⟨s.tick, rfl, countDown_toNat s.dt, countDown_toNat s.st, rfl⟩
  case key => exact ⟨s.keyEvent k p, rfl, by rw [s.keyEvent_pressed, if_pos rfl], rfl⟩
  case load =>
    exact ⟨s.load image, rfl, s.load_fault image, fun hfits k => s.load_readByte hfits⟩

end Sys2Proof.Machine
end

section
/-! Construction and RESET (70_reset_and_hazards.md R230): memory that lists nothing reads as its
background, the table FONT with zeros above it, and RESET is construction with the machine's own
FONT. -/

namespace Sys2Proof.Machine

open Claims

/-! ### What an unlisted address reads as -/

theorem Memory.background_of_lt (font : Font) {a : Nat} (h : a < 80) :
    Memory.background font a = font[a] :=
  dif_pos ⟨a.zero_le, by simpa [Config.fontBase] using h⟩

theorem Memory.background_of_le (font : Font) {a : Nat} (h : 80 ≤ a) :
    Memory.background font a = 0 :=
  dif_neg fun ⟨_, hlt⟩ => by simp only [Config.fontBase] at hlt; omega

/-! ### The constructed state -/

theorem State.construct_reg (font : Font) (r : Reg) : (State.construct font).reg r = 0 :=
  Vector.getElem_replicate r.isLt

theorem State.construct_stack (font : Font) (k : Fin 16) :
    (State.construct font).stack[k.val] = 0 :=
  Vector.getElem_replicate k.isLt

theorem State.construct_pressed (font : Font) (k : Fin 16) :
    (State.construct font).pressed k = false :=
  Vector.getElem_replicate k.isLt

theorem constructedWith_construct (font : Font) : ConstructedWith font (State.construct font) :=
  ⟨rfl, State.construct_reg font, rfl, rfl, rfl, State.construct_stack font, rfl, rfl,
    Display.pixel_clear, State.construct_pressed font, rfl,
    fun _ h => Memory.background_of_lt font h, fun _ h _ => Memory.background_of_le font h⟩

/-! ### RESET -/

/-- The draw counter is none of the fields that R230 lists. -/
theorem constructedWith_setDraws {font : Font} {u : State} (h : ConstructedWith font u) (n : Nat) :
    ConstructedWith font (u.setDraws n) :=
  h

theorem constructedWith_hostReset (s : State) : ConstructedWith s.font s.hostReset :=
  constructedWith_setDraws (constructedWith_construct s.font) s.draws

/-- Settles O42: RESET is construction with the machine's own FONT and the draw counter kept; the
reset state is construction with the default FONT. -/
theorem resetRestoresTheConstructionState : Obligations.ResetRestoresTheConstructionState :=
  ⟨fun s => ⟨s.hostReset, rfl, constructedWith_hostReset s⟩, constructedWith_construct,
    constructedWith_construct Config.font⟩

end Sys2Proof.Machine
end

section
/-! The opcode table against the decoder and the table of illegal words (30_encoding.md R78 to R81):
a word in a row decodes to an instruction of that row, so the rows are disjoint and the words they
hold are the words that decode. -/

namespace Sys2Proof

open Claims

variable {w m : Word} {i j : Instr}

/-! ### The round trip -/

/-- Settles O1: the two bytes make the word again, and the word decodes to its instruction. -/
theorem decodeOfEncodeIsTheInstruction : Obligations.DecodeOfEncodeIsTheInstruction := by
  intro i rest
  rw [encodeBytes, decode_wordBytes, decodeWord_encode]

/-- Settles O2: every bit of a legal word is in the group, an operand or the sub-opcode. -/
theorem encodeOfDecodedWordIsTheWord : Obligations.EncodeOfDecodedWordIsTheWord :=
  fun _ _ => encode_of_decodeWord

/-! ### The words of a row -/

theorem eq_of_matchesRow_exact (h : matchesRow w (0xFFFF#16, m) = true) : m = w := by
  rw [matchesRow, beq_iff_eq] at h
  exact h.symm.trans (BitVec.and_allOnes (x := w))

theorem group_of_matchesRow (h : matchesRow w (0xF000#16, m) = true) :
    (fieldG w).toNat = (fieldG m).toNat := by
  rw [matchesRow, beq_iff_eq, ← word_eq_formatA w, formatA_group] at h
  obtain rfl : formatA (fieldG w) 0 = m := h
  rw [fieldG_formatA]

theorem group_and_nibble_of_matchesRow (h : matchesRow w (0xF00F#16, m) = true) :
    (fieldG w).toNat = (fieldG m).toNat ∧ fieldN w = fieldN m := by
  rw [matchesRow, beq_iff_eq, ← word_eq_formatXYN w, formatXYN_sub] at h
  obtain rfl : formatXYN (fieldG w) 0 0 (fieldN w) = m := h
  rw [fieldG_formatXYN, fieldN_formatXYN]
  exact ⟨rfl, rfl⟩

theorem group_and_byte_of_matchesRow (h : matchesRow w (0xF0FF#16, m) = true) :
    (fieldG w).toNat = (fieldG m).toNat ∧ fieldNN w = fieldNN m := by
  rw [matchesRow, beq_iff_eq, ← word_eq_formatXNN w, formatXNN_sub] at h
  obtain rfl : formatXNN (fieldG w) 0 (fieldNN w) = m := h
  rw [fieldG_formatXNN, fieldNN_formatXNN]
  exact ⟨rfl, rfl⟩

/-- A word in an instruction's row decodes to an instruction of that row: the row fixes the group and
the sub-opcode, and the operands are the word's own. -/
theorem exists_decodeWord_of_matchesRow (h : matchesRow w (opcodeRow j) = true) :
    ∃ i, decodeWord w = some i ∧ opcodeRow i = opcodeRow j := by
  cases j with
  | cls | ret =>
    cases eq_of_matchesRow_exact h
    exact ⟨_, rfl, rfl⟩
  | jp | call | seByte | sneByte | ldByte | addByte | ldI | jpV0 | rnd | drw =>
    rw [decodeWord, group_of_matchesRow h]
    exact ⟨_, rfl, rfl⟩
  | seReg | sneReg | ldReg | orReg | andReg | xorReg | addReg | subReg | shr | subnReg | shl =>
    obtain ⟨hg, hn⟩ := group_and_nibble_of_matchesRow h
    simp only [decodeWord]
    rw [hg, hn]
    exact ⟨_, rfl, rfl⟩
  | skp | sknp | ldVxDt | ldVxK | ldDtVx | ldStVx | addIVx | ldFVx | ldBVx | storeRegs | loadRegs =>
    obtain ⟨hg, hkk⟩ := group_and_byte_of_matchesRow h
    rw [decodeWord, hg, hkk]
    exact ⟨_, rfl, rfl⟩

theorem opcodeRow_mem_opcodeTable (i : Instr) : opcodeRow i ∈ opcodeTable := by
  cases i <;> simp [opcodeTable, opcodeRow]

theorem exists_opcodeRow_of_mem {row : Word × Word} (h : row ∈ opcodeTable) :
    ∃ j, opcodeRow j = row := by
  obtain ⟨j, -, hj⟩ := List.mem_map.1 h
  exact ⟨j, hj⟩

/-- The law of `Laws.EncodingInRow`, for every instruction at once. -/
theorem encode_matchesRow : ∀ i : Instr, matchesRow (encode i) (opcodeRow i) = true
  | .cls => Laws.EncodingInRow.cls
  | .ret => Laws.EncodingInRow.ret
  | .jp nnn => Laws.EncodingInRow.jp nnn
  | .call nnn => Laws.EncodingInRow.call nnn
  | .seByte x kk => Laws.EncodingInRow.seByte x kk
  | .sneByte x kk => Laws.EncodingInRow.sneByte x kk
  | .seReg x y => Laws.EncodingInRow.seReg x y
  | .ldByte x kk => Laws.EncodingInRow.ldByte x kk
  | .addByte x kk => Laws.EncodingInRow.addByte x kk
  | .ldReg x y => Laws.EncodingInRow.ldReg x y
  | .orReg x y => Laws.EncodingInRow.orReg x y
  | .andReg x y => Laws.EncodingInRow.andReg x y
  | .xorReg x y => Laws.EncodingInRow.xorReg x y
  | .addReg x y => Laws.EncodingInRow.addReg x y
  | .subReg x y => Laws.EncodingInRow.subReg x y
  | .shr x y => Laws.EncodingInRow.shr x y
  | .subnReg x y => Laws.EncodingInRow.subnReg x y
  | .shl x y => Laws.EncodingInRow.shl x y
  | .sneReg x y => Laws.EncodingInRow.sneReg x y
  | .ldI nnn => Laws.EncodingInRow.ldI nnn
  | .jpV0 nnn => Laws.EncodingInRow.jpV0 nnn
  | .rnd x kk => Laws.EncodingInRow.rnd x kk
  | .drw x y n => Laws.EncodingInRow.drw x y n
  | .skp x => Laws.EncodingInRow.skp x
  | .sknp x => Laws.EncodingInRow.sknp x
  | .ldVxDt x => Laws.EncodingInRow.ldVxDt x
  | .ldVxK x => Laws.EncodingInRow.ldVxK x
  | .ldDtVx x => Laws.EncodingInRow.ldDtVx x
  | .ldStVx x => Laws.EncodingInRow.ldStVx x
  | .addIVx x => Laws.EncodingInRow.addIVx x
  | .ldFVx x => Laws.EncodingInRow.ldFVx x
  | .ldBVx x => Laws.EncodingInRow.ldBVx x
  | .storeRegs x => Laws.EncodingInRow.storeRegs x
  | .loadRegs x => Laws.EncodingInRow.loadRegs x

/-- The table and the decoder agree (R77, R79). -/
theorem decodeWord_isSome_iff_matchesRow :
    (decodeWord w).isSome = true ↔ ∃ row ∈ opcodeTable, matchesRow w row = true := by
  rw [Option.isSome_iff_exists]
  constructor
  · rintro ⟨i, hi⟩
    exact ⟨opcodeRow i, opcodeRow_mem_opcodeTable i, encode_of_decodeWord hi ▸ encode_matchesRow i⟩
  · rintro ⟨row, hrow, hmatch⟩
    obtain ⟨j, rfl⟩ := exists_opcodeRow_of_mem hrow
    obtain ⟨i, hi, -⟩ := exists_decodeWord_of_matchesRow hmatch
    exact ⟨i, hi⟩

/-- Settles O4: two rows that hold one word are both the row of the instruction it decodes to. -/
theorem wordMatchesAtMostOneRow : Obligations.WordMatchesAtMostOneRow := by
  refine ⟨fun w r₁ h₁ r₂ h₂ hm₁ hm₂ => ?_, fun w i hi => ?_⟩
  · obtain ⟨j₁, rfl⟩ := exists_opcodeRow_of_mem h₁
    obtain ⟨j₂, rfl⟩ := exists_opcodeRow_of_mem h₂
    obtain ⟨i₁, hi₁, hr₁⟩ := exists_decodeWord_of_matchesRow hm₁
    obtain ⟨i₂, hi₂, hr₂⟩ := exists_decodeWord_of_matchesRow hm₂
    rw [← hr₁, ← hr₂, Option.some.inj (hi₁.symm.trans hi₂)]
  · exact ⟨opcodeRow_mem_opcodeTable i, encode_of_decodeWord hi ▸ encode_matchesRow i⟩

/-! ### The table of illegal words (R80) -/

theorem decodeGroup0_isSome_iff : (decodeGroup0 w).isSome = true ↔ legalGroup0 w.toNat = true := by
  simp only [decodeGroup0, legalGroup0, Bool.or_eq_true, beq_iff_eq, ← BitVec.toNat_inj]
  split_ifs <;> simp_all

theorem decodeGroup8_isSome_iff (x y : Reg) :
    (decodeGroup8 x y (fieldN w).toNat).isSome = true ↔ legalGroup8 w.toNat = true := by
  rw [fieldN_toNat, legalGroup8]
  have hsub : w.toNat % 16 < 16 := Nat.mod_lt _ (by decide)
  generalize w.toNat % 16 = sub at hsub ⊢
  interval_cases sub <;> simp [decodeGroup8]

theorem decodeGroupE_isSome_iff (x : Reg) :
    (decodeGroupE x (fieldNN w).toNat).isSome = true ↔ legalGroupE w.toNat = true := by
  simp only [decodeGroupE, legalGroupE, fieldNN_toNat, Bool.or_eq_true, beq_iff_eq]
  split_ifs <;> simp_all

theorem decodeGroupF_isSome_iff (x : Reg) :
    (decodeGroupF x (fieldNN w).toNat).isSome = true ↔ legalGroupF w.toNat = true := by
  simp only [decodeGroupF, legalGroupF, fieldNN_toNat, List.contains_eq_mem]
  split_ifs <;> simp_all

/-- Groups 5 and 9: one legal sub-opcode, the nibble 0. -/
theorem zeroNibble_isSome_iff :
    (if fieldN w = 0#4 then some i else none).isSome = true ↔ legalGroup59 w.toNat = true := by
  have hzero : fieldN w = 0#4 ↔ w.toNat % 16 = 0 := by
    rw [← BitVec.toNat_inj, fieldN_toNat]
    rfl
  rw [legalGroup59, beq_iff_eq, ← hzero]
  split_ifs with h <;> simp [h]

theorem decodeWord_isSome_iff_legalWord :
    (decodeWord w).isSome = true ↔ legalWord w = true := by
  unfold decodeWord legalWord
  rw [fieldG_toNat]
  have hgroup : w.toNat / 4096 < 16 := by omega
  generalize w.toNat / 4096 = group at hgroup ⊢
  match group, hgroup with
  | 0, _ => exact decodeGroup0_isSome_iff
  | 5, _ | 9, _ => exact zeroNibble_isSome_iff
  | 8, _ => exact decodeGroup8_isSome_iff _ _
  | 14, _ => exact decodeGroupE_isSome_iff _
  | 15, _ => exact decodeGroupF_isSome_iff _
  | 1, _ | 2, _ | 3, _ | 4, _ | 6, _ | 7, _ | 10, _ | 11, _ | 12, _ | 13, _ =>
    exact iff_of_true rfl rfl
  | _ + 16, hge => exact absurd hge (Nat.not_lt.2 (Nat.le_add_left 16 _))

theorem decodeWord_eq_none_iff : decodeWord w = none ↔ legalWord w = false := by
  rw [← Bool.not_eq_true, ← decodeWord_isSome_iff_legalWord, Option.not_isSome_iff_eq_none]

/-- Settles O3: the decoder and the table of illegal words agree group by group, and the decoder
and the opcode table row by row. -/
theorem decodedWordsAreTheLegalWords : Obligations.DecodedWordsAreTheLegalWords := fun _ =>
  ⟨decodeWord_isSome_iff_legalWord,
    decodeWord_isSome_iff_legalWord.symm.trans decodeWord_isSome_iff_matchesRow⟩

/-- Settles O5: the words written out, decoded by evaluation. -/
theorem sampleWordsDecodeAsListed : Obligations.SampleWordsDecodeAsListed := by
  unfold Obligations.SampleWordsDecodeAsListed Decodes
  decide

end Sys2Proof
end

section
/-! Every operation answers a next state (log entry 1), and which pieces of state an instruction
writes (10_state.md R29 to R36). -/

namespace Sys2Proof.Machine

open Claims

variable {s t : State} {i : Instr}

/-! ### What RET, CALL and a key wait can do -/

theorem exec_ret_cases (h : exec .ret s = .next t) :
    (s.sp.val = 0 ∧ t = s.raise .stackUnderflow .ret 0#16) ∨
      ∃ hsp : 0 < s.sp.val,
        t = (s.setCalls s.stack ⟨s.sp.val - 1, by omega⟩).setPc s.stack[s.sp.val - 1] := by
  obtain hsp | hsp := Nat.eq_zero_or_pos s.sp.val
  · cases (exec_ret_of_empty hsp).symm.trans h
    exact .inl ⟨hsp, rfl⟩
  · cases (exec_ret_of_pos hsp).symm.trans h
    exact .inr ⟨hsp, rfl⟩

theorem exec_call_cases {nnn : Addr} (h : exec (.call nnn) s = .next t) :
    (s.sp.val = 16 ∧ t = s.raise .stackOverflow (.call nnn) 0#16) ∨
      ∃ hsp : s.sp.val < 16, t =
        (s.setCalls (s.stack.set s.sp.val s.pc) ⟨s.sp.val + 1, by omega⟩).setPc (zext16 nnn) := by
  obtain hsp | hsp := (Nat.lt_succ_iff.1 s.sp.isLt).lt_or_eq
  · cases (exec_call_of_lt nnn hsp).symm.trans h
    exact .inr ⟨hsp, rfl⟩
  · cases (exec_call_of_full nnn hsp).symm.trans h
    exact .inl ⟨hsp, rfl⟩

theorem exec_ldVxK_cases {x : Reg} (h : exec (.ldVxK x) s = .next t) :
    (s.firstPressed = none ∧ t = s.rewind) ∨
      ∃ k, s.firstPressed = some k ∧ t = s.setReg x (BitVec.ofNat 8 k.val) := by
  cases hfirst : s.firstPressed with
  | none =>
    cases (exec_ldVxK_of_none x hfirst).symm.trans h
    exact .inl ⟨rfl, rfl⟩
  | some k =>
    cases (exec_ldVxK_of_some x hfirst).symm.trans h
    exact .inr ⟨k, rfl, rfl⟩

/-! ### A next state -/

theorem exec_answers (i : Instr) (s : State) : ∃ t, exec i s = .next t := by
  cases i with
  | ret =>
    obtain hsp | hsp := Nat.eq_zero_or_pos s.sp.val
    · exact ⟨_, exec_ret_of_empty hsp⟩
    · exact ⟨_, exec_ret_of_pos hsp⟩
  | call nnn =>
    obtain hsp | hsp := (Nat.lt_succ_iff.1 s.sp.isLt).lt_or_eq
    · exact ⟨_, exec_call_of_lt nnn hsp⟩
    · exact ⟨_, exec_call_of_full nnn hsp⟩
  | ldVxK x =>
    cases hfirst : s.firstPressed with
    | none => exact ⟨_, exec_ldVxK_of_none x hfirst⟩
    | some k => exact ⟨_, exec_ldVxK_of_some x hfirst⟩
  | _ => exact ⟨_, rfl⟩

theorem step_answers (s : State) : ∃ t, step s = .next t := by
  obtain ⟨-, h⟩ | ⟨-, -, h⟩ | ⟨-, -, -, h⟩ | ⟨-, -, i, -, h⟩ := step_cases s
  · exact ⟨_, h⟩
  · exact ⟨_, h⟩
  · exact ⟨_, h⟩
  · rw [h]
    exact exec_answers i _

theorem HostOp.apply_answers (op : HostOp) (s : State) : ∃ t, op.apply s = .next t := by
  cases op with
  | step => exact step_answers s
  | tick | key | load | reset => exact ⟨_, rfl⟩

theorem runOps_answers (ops : List HostOp) (s : State) : ∃ t, runOps ops s = .next t := by
  induction ops generalizing s with
  | nil => exact ⟨s, rfl⟩
  | cons op ops ih =>
    obtain ⟨s', hs'⟩ := op.apply_answers s
    obtain ⟨t, ht⟩ := ih s'
    exact ⟨t, by rw [runOps, hs']; exact ht⟩

/-- Settles O48: a fault is a next state that records it, on every path. -/
theorem everyStepAnswersANextState : Obligations.EveryStepAnswersANextState :=
  ⟨exec_answers, step_answers, runOps_answers⟩

/-! ### Instructions that complete -/

/-- A data access that records no fault was in range, and is what the instruction goes on with. -/
theorem dataAccess_of_completes {n : Nat} {goOn : State}
    (h : (s.dataAccess i n goOn).fault = .none) :
    accessInRange s.i.toNat n = true ∧ s.dataAccess i n goOn = goOn := by
  cases hrange : accessInRange s.i.toNat n with
  | true => exact ⟨rfl, by rw [State.dataAccess, if_pos hrange]⟩
  | false =>
    rw [State.dataAccess, hrange] at h
    cases h

theorem ret_completes (h : exec .ret s = .next t) (hf : t.fault = .none) :
    ∃ hsp : 0 < s.sp.val,
      t = (s.setCalls s.stack ⟨s.sp.val - 1, by omega⟩).setPc s.stack[s.sp.val - 1] := by
  obtain ⟨-, rfl⟩ | hpop := exec_ret_cases h
  · cases hf
  · exact hpop

theorem call_completes {nnn : Addr} (h : exec (.call nnn) s = .next t) (hf : t.fault = .none) :
    ∃ hsp : s.sp.val < 16, t =
      (s.setCalls (s.stack.set s.sp.val s.pc) ⟨s.sp.val + 1, by omega⟩).setPc (zext16 nnn) := by
  obtain ⟨-, rfl⟩ | hpush := exec_call_cases h
  · cases hf
  · exact hpush

/-! ### The writers of each piece -/

/-- The pieces of state beside the registers, pc and the fault status, each with its writers among
the instructions. -/
def WritesOnlyItsPieces (i : Instr) (s t : State) : Prop :=
  ((∀ nnn x, i ≠ .ldI nnn ∧ i ≠ .addIVx x ∧ i ≠ .ldFVx x) → t.i = s.i) ∧
  ((∀ x, i ≠ .ldDtVx x) → t.dt = s.dt) ∧
  ((∀ x, i ≠ .ldStVx x) → t.st = s.st) ∧
  ((∀ nnn, i ≠ .ret ∧ i ≠ .call nnn) → t.stack = s.stack ∧ t.sp = s.sp) ∧
  ((∀ x y n, i ≠ .cls ∧ i ≠ .drw x y n) → t.disp = s.disp) ∧
  ((∀ x, i ≠ .ldBVx x ∧ i ≠ .storeRegs x) → t.mem = s.mem) ∧
  ((∀ x kk, i ≠ .rnd x kk) → t.draws = s.draws) ∧
  t.key = s.key ∧ t.font = s.font

theorem writesOnlyItsPieces_of_noPiece
    (h : t = { s with v := t.v, pc := t.pc, fault := t.fault }) : WritesOnlyItsPieces i s t := by
  rw [h]
  exact ⟨fun _ => rfl, fun _ => rfl, fun _ => rfl, fun _ => ⟨rfl, rfl⟩, fun _ => rfl, fun _ => rfl,
    fun _ => rfl, rfl, rfl⟩

theorem skipIf_writesOnlyItsPieces (c : Bool) : WritesOnlyItsPieces i s (s.skipIf c) := by
  cases c <;> exact writesOnlyItsPieces_of_noPiece rfl

theorem dataAccess_writesOnlyItsPieces {n : Nat} {goOn : State}
    (h : WritesOnlyItsPieces i s goOn) : WritesOnlyItsPieces i s (s.dataAccess i n goOn) := by
  unfold State.dataAccess
  split
  · exact h
  · exact writesOnlyItsPieces_of_noPiece rfl

theorem exec_writesOnlyItsPieces (h : exec i s = .next t) : WritesOnlyItsPieces i s t := by
  cases i with
  | ret =>
    obtain ⟨-, rfl⟩ | ⟨-, rfl⟩ := exec_ret_cases h
    · exact writesOnlyItsPieces_of_noPiece rfl
    · simp [WritesOnlyItsPieces]
  | call nnn =>
    obtain ⟨-, rfl⟩ | ⟨-, rfl⟩ := exec_call_cases h
    · exact writesOnlyItsPieces_of_noPiece rfl
    · simp [WritesOnlyItsPieces]
  | ldVxK x =>
    obtain ⟨-, rfl⟩ | ⟨k, -, rfl⟩ := exec_ldVxK_cases h
    all_goals exact writesOnlyItsPieces_of_noPiece rfl
  | seByte | sneByte | seReg | sneReg | skp | sknp =>
    cases h
    exact skipIf_writesOnlyItsPieces _
  | drw | ldBVx | storeRegs =>
    cases h
    exact dataAccess_writesOnlyItsPieces (by simp [WritesOnlyItsPieces, State.setFlag])
  | loadRegs =>
    cases h
    exact dataAccess_writesOnlyItsPieces (writesOnlyItsPieces_of_noPiece rfl)
  | cls | ldI | addIVx | ldFVx | ldDtVx | ldStVx | rnd =>
    cases h
    simp [WritesOnlyItsPieces, State.takeRandom]
  | ldByte | addByte | ldReg | orReg | andReg | xorReg | addReg | subReg | shr | subnReg | shl
  | jp | jpV0 | ldVxDt =>
    cases h
    exact writesOnlyItsPieces_of_noPiece rfl

/-- Settles O55: each instruction writes its own piece or none; a fault writes none. -/
theorem eachStatePieceHasOnlyItsWriters : Obligations.EachStatePieceHasOnlyItsWriters :=
  fun _ _ _ => exec_writesOnlyItsPieces

/-! ### The registers written (10_state.md R25) -/

theorem dataAccess_reg (r : Reg) {n : Nat} {goOn : State} (h : goOn.reg r = s.reg r) :
    (s.dataAccess i n goOn).reg r = s.reg r := by
  unfold State.dataAccess
  split
  · exact h
  · rfl

theorem State.skipIf_reg (s : State) (c : Bool) (r : Reg) : (s.skipIf c).reg r = s.reg r := by
  cases c <;> rfl

/-- The condition that `writesOf` and `pcAfter` put on a key wait is that the scan finds a key. -/
theorem State.exists_pressed_iff (s : State) :
    (∃ k, s.pressed k = true) ↔ s.firstPressed ≠ none := by
  simp [State.firstPressed_none]

theorem writesOf_ldVxK_of_some (x : Reg) {k : Fin 16} (h : s.firstPressed = some k) :
    writesOf s (.ldVxK x) = [x] :=
  if_pos (s.exists_pressed_iff.2 (h ▸ Option.some_ne_none k))

theorem writesOf_ldVxK_of_none (x : Reg) (h : s.firstPressed = none) :
    writesOf s (.ldVxK x) = [] :=
  if_neg (mt s.exists_pressed_iff.1 (not_not.2 h))

theorem exec_reg_of_not_mem {r : Reg} (h : exec i s = .next t) (hr : r ∉ writesOf s i) :
    t.reg r = s.reg r := by
  cases i with
  | ret => obtain ⟨-, rfl⟩ | ⟨-, rfl⟩ := exec_ret_cases h <;> rfl
  | call nnn => obtain ⟨-, rfl⟩ | ⟨-, rfl⟩ := exec_call_cases h <;> rfl
  | ldVxK x =>
    obtain ⟨-, rfl⟩ | ⟨k, hfirst, rfl⟩ := exec_ldVxK_cases h
    · rfl
    · rw [writesOf_ldVxK_of_some x hfirst] at hr
      exact s.setReg_reg_other x r _ (List.ne_of_not_mem_cons hr)
  | seByte | sneByte | seReg | sneReg | skp | sknp =>
    cases h
    exact s.skipIf_reg _ r
  | ldBVx | storeRegs =>
    cases h
    exact dataAccess_reg r rfl
  | drw =>
    cases h
    exact dataAccess_reg r (State.setReg_reg_other _ flagReg r _ (List.ne_of_not_mem_cons hr))
  | loadRegs x =>
    have hx : ¬ r ≤ x := by simpa [writesOf] using hr
    cases h
    exact dataAccess_reg r (by rw [s.loadUpTo_reg x r, if_neg hx])
  | ldByte x | addByte x | ldReg x | orReg x | andReg x | xorReg x | ldVxDt x | rnd x =>
    cases h
    exact s.setReg_reg_other x r _ (List.ne_of_not_mem_cons hr)
  | addReg x | subReg x | shr x | subnReg x | shl x =>
    have hx : r ≠ x := List.ne_of_not_mem_cons hr
    have hflag : r ≠ flagReg := List.ne_of_not_mem_cons (List.not_mem_of_not_mem_cons hr)
    cases h
    rw [s.setResultThenFlag_reg, if_neg hflag, if_neg hx]
  | cls | jp | jpV0 | ldI | addIVx | ldFVx | ldDtVx | ldStVx =>
    cases h
    rfl

/-- Settles O53: the register written, and VF for the flag-setting instructions and DRW, are the
list's. -/
theorem onlyListedRegistersChange : Obligations.OnlyListedRegistersChange :=
  fun _ _ _ h _ => exec_reg_of_not_mem h

/-! ### pc (10_state.md R27) -/

theorem skipIf_pc_of_iff {c : Bool} {P : Prop} [Decidable P] (h : c = true ↔ P) :
    (s.skipIf c).pc = if P then s.pc + 2#16 else s.pc := by
  cases c with
  | false => rw [if_neg (mt h.2 Bool.false_ne_true)]; rfl
  | true => rw [if_pos (h.1 rfl)]; rfl

theorem skipIf_pc_of_iff_not {c : Bool} {P : Prop} [Decidable P] (h : c = true ↔ ¬ P) :
    (s.skipIf c).pc = if P then s.pc else s.pc + 2#16 := by
  rw [skipIf_pc_of_iff h, ite_not]

theorem zextByte_add_zext16_eq_ofNat (b : Byte) (nnn : Addr) :
    zextByte b + zext16 nnn = BitVec.ofNat 16 (b.toNat + nnn.toNat) := by
  rw [← zextByte_add_zext16_toNat, BitVec.ofNat_toNat, BitVec.setWidth_eq]

theorem exec_pc_of_completes (h : exec i s = .next t) (hf : t.fault = .none) :
    t.pc = pcAfter s i := by
  cases i with
  | ret =>
    obtain ⟨hsp, rfl⟩ := ret_completes h hf
    rw [pcAfter, dif_pos hsp]
    rfl
  | call =>
    obtain ⟨-, rfl⟩ := call_completes h hf
    rfl
  | ldVxK x =>
    simp only [pcAfter, s.exists_pressed_iff]
    obtain ⟨hfirst, rfl⟩ | ⟨k, hfirst, rfl⟩ := exec_ldVxK_cases h
    · exact (if_neg (not_not.2 hfirst)).symm
    · exact (if_pos (hfirst ▸ Option.some_ne_none k)).symm
  | seByte x kk =>
    cases h
    exact skipIf_pc_of_iff (beq_iff_toNat_eq (s.reg x) kk)
  | sneByte x kk =>
    cases h
    exact skipIf_pc_of_iff_not (bne_iff_toNat_ne (s.reg x) kk)
  | seReg x y =>
    cases h
    exact skipIf_pc_of_iff (beq_iff_toNat_eq (s.reg x) (s.reg y))
  | sneReg x y =>
    cases h
    exact skipIf_pc_of_iff_not (bne_iff_toNat_ne (s.reg x) (s.reg y))
  | skp =>
    cases h
    exact skipIf_pc_of_iff Iff.rfl
  | sknp x =>
    cases h
    exact skipIf_pc_of_iff_not (by rw [Bool.not_eq_true', Bool.not_eq_true]; rfl)
  | drw | ldBVx | storeRegs | loadRegs =>
    cases h
    rw [(dataAccess_of_completes hf).2]
    rfl
  | jpV0 nnn =>
    cases h
    exact zextByte_add_zext16_eq_ofNat (s.reg 0) nnn
  | ldByte | addByte | ldReg | orReg | andReg | xorReg | addReg | subReg | shr | subnReg | shl
  | rnd | cls | jp | ldI | addIVx | ldFVx | ldDtVx | ldStVx | ldVxDt =>
    cases h
    rfl

/-- Settles O52: the jumps, the skips, RET and a stalled key wait write pc; every other instruction
leaves it at A + 2. -/
theorem eachInstructionLeavesPcAsListed : Obligations.EachInstructionLeavesPcAsListed :=
  fun _ _ _ _ => exec_pc_of_completes

end Sys2Proof.Machine
end

section
/-! The cause of a fault (60_exceptions.md R201 to R203): what an instruction itself checks, and that
the STEP's own reading of the word at pc expects the same. -/

namespace Sys2Proof.Machine

open Claims

variable {s t : State} {i : Instr}

/-- The cause a fault status records, if any. -/
def FaultStatus.cause : FaultStatus → Option Fault
  | .none => Option.none
  | .halted cause _ _ _ => some cause

theorem FaultStatus.cause_eq_none {f : FaultStatus} (h : f.cause = Option.none) : f = .none := by
  cases f with
  | none => rfl
  | halted => cases h

theorem FaultStatus.cause_eq_some {f : FaultStatus} {cause : Fault} (h : f.cause = some cause) :
    ∃ addr word daddr, f = .halted cause addr word daddr := by
  cases f with
  | none => cases h
  | halted _ addr word daddr =>
    cases h
    exact ⟨addr, word, daddr, rfl⟩

/-! ### The instruction's own check -/

/-- The cause a data access of `n` bytes at I raises. -/
def accessCause (s : State) (n : Nat) : Option Fault :=
  if accessInRange s.i.toNat n then none else some .dataAddressOutOfRange

/-- The cause an instruction's own check raises (R202). -/
def checkedCause (s : State) : Instr → Option Fault
  | .ret => if s.sp.val = 0 then some .stackUnderflow else none
  | .call _ => if s.sp.val = 16 then some .stackOverflow else none
  | .drw _ _ n => accessCause s n.toNat
  | .ldBVx _ => accessCause s 3
  | .storeRegs x | .loadRegs x => accessCause s (x.val + 1)
  | _ => none

theorem dataAccess_cause {n : Nat} {goOn : State} (h : goOn.fault = .none) :
    (s.dataAccess i n goOn).fault.cause = accessCause s n := by
  unfold State.dataAccess accessCause
  split
  · rw [h]
    rfl
  · rfl

theorem exec_cause (hf : s.fault = .none) (h : exec i s = .next t) :
    t.fault.cause = checkedCause s i := by
  have hnone : s.fault.cause = none := congrArg FaultStatus.cause hf
  cases i with
  | ret =>
    obtain ⟨hsp, rfl⟩ | ⟨hsp, rfl⟩ := exec_ret_cases h
    · exact (if_pos hsp).symm
    · exact hnone.trans (if_neg hsp.ne').symm
  | call nnn =>
    obtain ⟨hsp, rfl⟩ | ⟨hsp, rfl⟩ := exec_call_cases h
    · exact (if_pos hsp).symm
    · exact hnone.trans (if_neg hsp.ne).symm
  | drw | ldBVx | storeRegs | loadRegs =>
    cases h
    exact dataAccess_cause hf
  | ldVxK => exact (congrArg FaultStatus.cause (exec_ldVxK_fault h)).trans hnone
  | seByte | sneByte | seReg | sneReg | skp | sknp =>
    cases h
    exact (congrArg FaultStatus.cause (s.skipIf_fault _)).trans hnone
  | ldByte | addByte | ldReg | orReg | andReg | xorReg | addReg | subReg | shr | subnReg | shl
  | rnd | cls | jp | jpV0 | ldI | addIVx | ldFVx | ldDtVx | ldStVx | ldVxDt =>
    cases h
    exact hnone

/-! ### The cause expected from the word at pc -/

theorem wordAtPc_eq_encode (hd : decodeWord (s.readWord s.pc.toNat) = some i) :
    s.wordAtPc = (encode i).toNat := by
  rw [encode_of_decodeWord hd, s.readWord_pc]

/-- After the fetch and the decode, the expected cause is the instruction's own. -/
theorem expectedCause_of_decoded (hpc : s.pc.toNat ≤ 0xFFE)
    (hd : decodeWord (s.readWord s.pc.toNat) = some i) : expectedCause s = checkedCause s i := by
  have hlegal : legalWord (BitVec.ofNat 16 s.wordAtPc) = true := by
    rw [s.ofNat_wordAtPc, ← decodeWord_isSome_iff_legalWord, hd]
    rfl
  have hword := wordAtPc_eq_encode hd
  unfold expectedCause
  simp only
  rw [if_neg (Nat.not_lt.2 hpc), if_neg (by rw [hlegal]; exact Bool.noConfusion)]
  cases i with
  | cls =>
    have hw : s.wordAtPc = 0x00E0 := hword
    rw [if_neg (by omega), if_neg (by omega), if_neg (by omega)]
    rfl
  | ret =>
    have hw : s.wordAtPc = 0x00EE := hword
    simp [hw, checkedCause]
  | call nnn =>
    simp only [encode, formatA_toNat, BitVec.toNat_ofNat, Nat.reducePow, Nat.reduceMod] at hword
    rw [if_neg (by omega)]
    have hgroup : s.wordAtPc / 4096 = 2 := by omega
    simp [hgroup, checkedCause]
  | drw x y n =>
    simp only [encode, formatXYN_toNat, BitVec.toNat_ofNat, Nat.reducePow, Nat.reduceMod] at hword
    rw [if_neg (by omega), if_neg (by omega), checkedCause, accessCause, ← ite_not]
    refine if_congr ?_ rfl rfl
    rw [accessInRange_iff]
    omega
  | ldBVx | storeRegs | loadRegs =>
    simp only [encode, formatXNN_toNat, BitVec.toNat_ofNat, Nat.reducePow, Nat.reduceMod] at hword
    rw [if_neg (by omega), if_neg (by omega), checkedCause, accessCause, ← ite_not]
    refine if_congr ?_ rfl rfl
    rw [accessInRange_iff]
    omega
  | jp | ldI | jpV0 =>
    simp only [encode, formatA_toNat, BitVec.toNat_ofNat, Nat.reducePow, Nat.reduceMod] at hword
    rw [if_neg (by omega), if_neg (by omega), if_neg (by omega)]
    rfl
  | seReg | sneReg | ldReg | orReg | andReg | xorReg | addReg | subReg | shr | subnReg | shl =>
    simp only [encode, formatXYN_toNat, BitVec.toNat_ofNat, Nat.reducePow, Nat.reduceMod] at hword
    rw [if_neg (by omega), if_neg (by omega), if_neg (by omega)]
    rfl
  | seByte | sneByte | ldByte | addByte | rnd | skp | sknp | ldVxDt | ldVxK | ldDtVx | ldStVx
  | addIVx | ldFVx =>
    simp only [encode, formatXNN_toNat, BitVec.toNat_ofNat, Nat.reducePow, Nat.reduceMod] at hword
    rw [if_neg (by omega), if_neg (by omega), if_neg (by omega)]
    rfl

/-- R203: the first condition that holds gives the cause of a STEP. -/
theorem step_cause (hf : s.fault = .none) (h : step s = .next t) :
    t.fault.cause = expectedCause s := by
  obtain ⟨hne, -⟩ | ⟨-, hpc, hstep⟩ | ⟨-, hpc, hd, hstep⟩ | ⟨-, hpc, i, hd, hstep⟩ := step_cases s
  · exact absurd hf hne
  · cases hstep.symm.trans h
    exact (if_pos hpc).symm
  · cases hstep.symm.trans h
    have hillegal : legalWord (BitVec.ofNat 16 s.wordAtPc) = false := by
      rw [s.ofNat_wordAtPc, decodeWord_eq_none_iff.1 hd]
    rw [expectedCause, if_neg (Nat.not_lt.2 hpc), if_pos hillegal]
    rfl
  · rw [expectedCause_of_decoded hpc hd]
    exact exec_cause (s := s.advance) hf (hstep.symm.trans h)

/-- Settles O47: the recorded cause is the expected one, and none is recorded when none is
expected. -/
theorem faultCauseIsTheFirstThatHolds : Obligations.FaultCauseIsTheFirstThatHolds := by
  refine fun s => ⟨step_of_halted, fun hf => ?_⟩
  obtain ⟨t, ht⟩ := step_answers s
  have hcause := step_cause hf ht
  exact ⟨t, ht, fun cause h => FaultStatus.cause_eq_some (hcause.trans h),
    fun h => FaultStatus.cause_eq_none (hcause.trans h)⟩

end Sys2Proof.Machine
end

section
/-! The invariant (10_state.md R27; 20_memory.md R50; 60_exceptions.md R204): it holds at
construction, and STEP and every other host operation keep it. -/

namespace Sys2Proof.Machine

open Claims

variable {s t : State} {i : Instr}

/-! ### Construction -/

theorem State.construct_inv (font : Font) : (State.construct font).Inv where
  mem_wf := Memory.nil_wf font
  pc_bound := show (0x200#16).toNat ≤ 0x10FE by decide
  calls_bound k hk := absurd hk k.val.not_lt_zero
  fault_right := trivial

/-- Settles O49: nothing is listed, no return address is in use and no fault is recorded. -/
theorem resetMeetsTheInvariant : Obligations.ResetMeetsTheInvariant :=
  ⟨State.construct_inv Config.font, State.construct_inv⟩

/-! ### An instruction that completes -/

/-- A completing STEP of a machine with no fault is an instruction that completes. -/
theorem step_completes (hf : s.fault = .none) (h : step s = .next t) (ht : t.fault = .none) :
    s.pc.toNat ≤ 0xFFE ∧ ∃ i, exec i s.advance = .next t := by
  obtain ⟨hne, -⟩ | ⟨-, -, hstep⟩ | ⟨-, -, -, hstep⟩ | ⟨-, hpc, i, -, hstep⟩ := step_cases s
  · exact absurd hf hne
  · cases hstep.symm.trans h
    cases ht
  · cases hstep.symm.trans h
    cases ht
  · exact ⟨hpc, i, hstep.symm.trans h⟩

theorem storeBytes_mem_wf {a : Nat} {bs : List Byte} (hs : s.mem.wf s.font)
    (h : a + bs.length ≤ 0x1000) : (s.storeBytes a bs).mem.wf (s.storeBytes a bs).font :=
  Memory.writeBytes_wf s.font bs s.mem a hs h

/-- A store at I lies below 0x1000 where the range check lets it go on. -/
theorem dataAccess_storeBytes_mem_wf {n : Nat} {bs : List Byte} (hs : s.mem.wf s.font)
    (hn : bs.length = n) :
    (s.dataAccess i n (s.storeBytes s.i.toNat bs)).mem.wf
      (s.dataAccess i n (s.storeBytes s.i.toNat bs)).font := by
  unfold State.dataAccess
  split
  · next hrange =>
    rw [accessInRange_iff] at hrange
    have hi := s.i.isLt
    obtain rfl | hpos := Nat.eq_zero_or_pos n
    · rw [List.length_eq_zero_iff.1 hn]
      exact hs
    · exact storeBytes_mem_wf hs (by omega)
  · exact hs

theorem exec_mem_wf (hs : s.mem.wf s.font) (h : exec i s = .next t) : t.mem.wf t.font := by
  obtain ⟨-, -, -, -, -, hmem, -, -, hfont⟩ := exec_writesOnlyItsPieces h
  cases i with
  | ldBVx =>
    cases h
    exact dataAccess_storeBytes_mem_wf hs rfl
  | storeRegs x =>
    cases h
    exact dataAccess_storeBytes_mem_wf hs (s.regsUpTo_length x)
  | _ =>
    rw [hfont, hmem (by simp)]
    exact hs

/-- Every return address in use is some instruction's address plus 2. -/
def CallsBounded (stack : Vector Word 16) (sp : Fin 17) : Prop :=
  ∀ k : Fin 16, k.val < sp.val → 2 ≤ stack[k.val].toNat ∧ stack[k.val].toNat ≤ 0x1000

/-- The new entry is pc, which is A + 2 in a meaning; the entries below it are as before. -/
theorem callsBounded_push {stack : Vector Word 16} {sp : Fin 17} {a : Word}
    (hs : CallsBounded stack sp) (hsp : sp.val < 16) (ha : 2 ≤ a.toNat ∧ a.toNat ≤ 0x1000) :
    CallsBounded (stack.set sp.val a) ⟨sp.val + 1, by omega⟩ := by
  intro k hk
  rw [Vector.getElem_set]
  split
  · exact ha
  · next hne => exact hs k (by dsimp only at hk; omega)

theorem exec_callsBounded (hs : CallsBounded s.stack s.sp)
    (hpc : 2 ≤ s.pc.toNat ∧ s.pc.toNat ≤ 0x1000) (h : exec i s = .next t) (ht : t.fault = .none) :
    CallsBounded t.stack t.sp := by
  obtain ⟨-, -, -, hcalls, -⟩ := exec_writesOnlyItsPieces h
  cases i with
  | ret =>
    obtain ⟨hsp, rfl⟩ := ret_completes h ht
    exact fun k hk => hs k (hk.trans_le (Nat.sub_le _ _))
  | call =>
    obtain ⟨hsp, rfl⟩ := call_completes h ht
    exact callsBounded_push hs hsp hpc
  | _ =>
    obtain ⟨hstack, hsp⟩ := hcalls (by simp)
    rw [hstack, hsp]
    exact hs

/-- R27: pc is at most `0xFF + 0xFFF`, the largest sum of JP V0. -/
theorem pcAfter_toNat_le (hs : CallsBounded s.stack s.sp)
    (hpc : 2 ≤ s.pc.toNat ∧ s.pc.toNat ≤ 0x1000) (i : Instr) : (pcAfter s i).toNat ≤ 0x10FE := by
  have hnext : s.pc.toNat ≤ 0x10FE := by omega
  have hskip : (s.pc + 2#16).toNat ≤ 0x10FE := by bv_omega
  have hback : (s.pc - 2#16).toNat ≤ 0x10FE := by bv_omega
  cases i with
  | jp nnn | call nnn => exact (zext16_toNat nnn).trans_le (by omega)
  | jpV0 nnn =>
    rw [pcAfter, val, ← zextByte_add_zext16_eq_ofNat, zextByte_add_zext16_toNat]
    omega
  | ret =>
    rw [pcAfter]
    split
    · next hsp =>
      have htop := hs ⟨s.sp.val - 1, by omega⟩ (Nat.sub_lt hsp Nat.one_pos)
      exact htop.2.trans (by decide)
    · exact hnext
  | seByte | sneByte | seReg | sneReg | skp | sknp =>
    rw [pcAfter]
    split <;> assumption
  | ldVxK =>
    rw [pcAfter]
    split <;> assumption
  | ldByte | addByte | ldReg | orReg | andReg | xorReg | addReg | subReg | shr | subnReg | shl
  | rnd | cls | ldI | addIVx | ldFVx | ldDtVx | ldStVx | ldVxDt | drw | ldBVx | storeRegs
  | loadRegs => exact hnext

theorem State.advance_pc_bounds (h : s.pc.toNat ≤ 0xFFE) :
    2 ≤ s.advance.pc.toNat ∧ s.advance.pc.toNat ≤ 0x1000 := by
  rw [State.advance_pc]
  bv_omega

/-! ### A fault -/

theorem State.ofNat_wordAtPc_toNat (s : State) :
    (BitVec.ofNat 16 s.wordAtPc).toNat = s.wordAtPc := by
  rw [s.ofNat_wordAtPc, s.readWord_pc]

theorem faultDataAddr_toNat (a : Word) :
    (faultDataAddr .dataAddressOutOfRange a).toNat = max a.toNat 0x1000 := by
  rw [faultDataAddr, if_pos rfl, ← firstOffending_eq_ofNat, firstOffending_toNat]

/-- The record of R204 tells the truth when its cause is the expected one: the conditions under
which a cause is expected are those that the record's truth asks for. -/
theorem faultRecordRight_of_expectedCause {cause : Fault} {word : Word}
    (hcause : expectedCause s = some cause)
    (hword : word = if cause = .fetchAddressOutOfRange then 0 else BitVec.ofNat 16 s.wordAtPc) :
    State.FaultRecordRight
      { s with fault := .halted cause s.pc word (faultDataAddr cause s.i) } := by
  have hnat := s.ofNat_wordAtPc_toNat
  unfold expectedCause at hcause
  dsimp only at hcause
  split_ifs at hcause with hfetch hillegal hret hcall hdata
  all_goals
    cases hcause
    subst hword
    refine ⟨rfl, ?_⟩
  · exact ⟨hfetch, rfl, rfl⟩
  · exact ⟨Nat.not_lt.1 hfetch, hillegal, rfl⟩
  · obtain ⟨hw, hsp⟩ := hret
    exact ⟨Nat.not_lt.1 hfetch, congrArg (BitVec.ofNat 16) hw, hsp, rfl⟩
  · obtain ⟨hw, hsp⟩ := hcall
    exact ⟨Nat.not_lt.1 hfetch, (congrArg (· / 4096) hnat).trans hw, hsp, rfl⟩
  · refine ⟨Nat.not_lt.1 hfetch, faultDataAddr_toNat s.i, ?_⟩
    simp only [reduceCtorEq, if_false, hnat]
    omega

/-! ### STEP -/

theorem step_inv_of_completes (hs : s.Inv) (hf : s.fault = .none) (h : step s = .next t)
    (ht : t.fault = .none) : t.Inv := by
  obtain ⟨hpc, i, hexec⟩ := step_completes hf h ht
  have hadvance := State.advance_pc_bounds hpc
  exact {
    mem_wf := exec_mem_wf (s := s.advance) hs.mem_wf hexec
    pc_bound := by
      rw [exec_pc_of_completes hexec ht]
      exact pcAfter_toNat_le (s := s.advance) hs.calls_bound hadvance i
    calls_bound := exec_callsBounded (s := s.advance) hs.calls_bound hadvance hexec ht
    fault_right := by
      rw [State.FaultRecordRight, ht]
      trivial }

theorem step_inv_of_raises (hs : s.Inv) (hf : s.fault = .none) (h : step s = .next t)
    (ht : t.fault ≠ .none) : t.Inv := by
  have hexpected := step_cause hf h
  obtain ⟨cause, word, daddr, rfl, hword, hdaddr⟩ := faultsArePrecise s t hf h ht
  exact {
    mem_wf := hs.mem_wf
    pc_bound := hs.pc_bound
    calls_bound := hs.calls_bound
    fault_right := by
      rw [hdaddr]
      exact faultRecordRight_of_expectedCause hexpected.symm hword }

theorem step_inv (hs : s.Inv) (h : step s = .next t) : t.Inv := by
  by_cases hf : s.fault = .none
  · by_cases ht : t.fault = .none
    · exact step_inv_of_completes hs hf h ht
    · exact step_inv_of_raises hs hf h ht
  · cases (step_of_halted hf).symm.trans h
    exact hs

/-- Settles O50: a STEP stands still, completes an instruction, or records a fault precisely. -/
theorem stepKeepsTheInvariant : Obligations.StepKeepsTheInvariant := fun _ _ => step_inv

/-! ### The host's operations -/

theorem State.load_inv (hs : s.Inv) (image : List Byte) : (s.load image).Inv := by
  obtain hlong | hfits := Nat.lt_or_ge 3584 image.length
  · rw [s.load_rejects image hlong]
    exact hs
  · rw [s.load_fits image hfits]
    exact ⟨storeBytes_mem_wf hs.mem_wf (by omega), hs.pc_bound, hs.calls_bound, hs.fault_right⟩

theorem State.setDraws_inv (hs : s.Inv) (n : Nat) : (s.setDraws n).Inv :=
  ⟨hs.mem_wf, hs.pc_bound, hs.calls_bound, hs.fault_right⟩

theorem HostOp.apply_inv (op : HostOp) (s t : State) (hs : s.Inv) (h : op.apply s = .next t) :
    t.Inv := by
  cases op with
  | step => exact step_inv hs h
  | tick | key =>
    cases h
    exact ⟨hs.mem_wf, hs.pc_bound, hs.calls_bound, hs.fault_right⟩
  | load image =>
    cases h
    exact State.load_inv hs image
  | reset =>
    cases h
    exact State.setDraws_inv (State.construct_inv s.font) s.draws

/-- Settles O51: every operation keeps the invariant, so every run does. -/
theorem everyRunKeepsTheInvariant : Obligations.EveryRunKeepsTheInvariant :=
  runOps_induction State.Inv HostOp.apply_inv

end Sys2Proof.Machine
end

section
/-! What an instruction does not read: ST (10_state.md R30) and the call-stack entries at SP and
above (R32). Other values there are carried through a STEP unread. -/

namespace Sys2Proof.Machine

open Claims

variable {s s' t : State} {i : Instr}

/-! ### Two runs of one STEP -/

/-- Two states that STEP cannot tell apart before the instruction runs: a relation that relates them,
holds again when both take one fault, and is kept by the instructions on them, is kept by STEP. -/
theorem step_keeps_related {R : State → State → Prop} (hfault : s'.fault = s.fault)
    (hpc : s'.pc = s.pc) (hread : ∀ a, s'.readByte a = s.readByte a) (hself : R s s')
    (htake : ∀ c a w d, R (s.faultAt c a w d) (s'.faultAt c a w d))
    (hexec : ∀ i t, exec i s.advance = .next t → ∃ t', exec i s'.advance = .next t' ∧ R t t')
    (h : step s = .next t) : ∃ t', step s' = .next t' ∧ R t t' := by
  have hword : s'.readWord s'.pc.toNat = s.readWord s.pc.toNat := by
    rw [State.readWord, State.readWord, hread, hread, hpc]
  obtain ⟨hf, hstep⟩ | ⟨hf, hle, hstep⟩ | ⟨hf, hle, hd, hstep⟩ | ⟨hf, hle, i, hd, hstep⟩ :=
    step_cases s
  all_goals
    rw [← hfault] at hf
    replace hstep := hstep.symm.trans h
  · cases hstep
    exact ⟨s', step_of_halted hf, hself⟩
  · cases hstep
    rw [← hpc] at hle ⊢
    exact ⟨_, step_of_pc_out_of_range hf hle, htake ..⟩
  · cases hstep
    rw [← hpc] at hle
    rw [← hword] at hd ⊢
    rw [← hpc]
    exact ⟨_, step_of_unknown_word hf hle hd, htake ..⟩
  · rw [← hpc] at hle
    rw [← hword] at hd
    rw [step_of_decoded hf hle hd]
    exact hexec i t hstep

/-! ### Other values of ST and of the stack -/

/-- The state with another ST and other stack entries. -/
def State.withStAndStack (st : Byte) (stack : Vector Word 16) (s : State) : State :=
  { s with st := st, stack := stack }

section
variable (st : Byte) (stack : Vector Word 16)

theorem State.skipIf_withStAndStack (s : State) (c : Bool) :
    (s.withStAndStack st stack).skipIf c = (s.skipIf c).withStAndStack st stack := by
  cases c <;> rfl

theorem State.readBytes_withStAndStack (s : State) (a n : Nat) :
    (s.withStAndStack st stack).readBytes a n = s.readBytes a n :=
  State.readBytes_congr _ s n a fun _ _ => rfl

theorem State.dataAccess_withStAndStack (s : State) (i : Instr) (n : Nat) {goOn goOn' : State}
    (h : goOn' = goOn.withStAndStack st stack) :
    (s.withStAndStack st stack).dataAccess i n goOn' =
      (s.dataAccess i n goOn).withStAndStack st stack := by
  rw [h, State.dataAccess, State.dataAccess, apply_ite (State.withStAndStack st stack)]
  rfl

theorem State.drawSprite_withStAndStack (s : State) (x y : Reg) (n : Nibble) :
    (s.withStAndStack st stack).drawSprite x y n = s.drawSprite x y n :=
  congrArg (fun bytes => Drawing.rows (s.reg x).toNat (s.reg y).toNat 0 bytes ⟨s.disp, false⟩)
    (s.readBytes_withStAndStack st stack _ _)

/-- The instructions other than LD ST, RET and CALL carry ST and the stack through. -/
theorem exec_withStAndStack (hst : ∀ x, i ≠ .ldStVx x) (hcalls : ∀ nnn, i ≠ .ret ∧ i ≠ .call nnn)
    (h : exec i s = .next t) :
    exec i (s.withStAndStack st stack) = .next (t.withStAndStack st stack) := by
  cases i with
  | ldStVx x => exact absurd rfl (hst x)
  | ret => exact absurd rfl (hcalls 0).1
  | call nnn => exact absurd rfl (hcalls nnn).2
  | ldVxK x =>
    obtain ⟨hfirst, rfl⟩ | ⟨k, hfirst, rfl⟩ := exec_ldVxK_cases h
    · exact exec_ldVxK_of_none (s := s.withStAndStack st stack) x hfirst
    · exact exec_ldVxK_of_some (s := s.withStAndStack st stack) x hfirst
  | seByte | sneByte | seReg | sneReg | skp | sknp =>
    cases h
    exact congrArg Host.Outcome.next (s.skipIf_withStAndStack st stack _)
  | drw x y n =>
    cases h
    rw [exec, execDrw, s.drawSprite_withStAndStack]
    exact congrArg Host.Outcome.next (s.dataAccess_withStAndStack st stack _ _ rfl)
  | ldBVx | storeRegs | loadRegs =>
    cases h
    exact congrArg Host.Outcome.next (s.dataAccess_withStAndStack st stack _ _ rfl)
  | ldByte | addByte | ldReg | orReg | andReg | xorReg | addReg | subReg | shr | subnReg | shl
  | rnd | cls | jp | jpV0 | ldI | addIVx | ldFVx | ldDtVx | ldVxDt =>
    cases h
    rfl

end

/-! ### ST -/

theorem exec_ret_setSt (b : Byte) (h : exec .ret s = .next t) :
    exec .ret (s.setSt b) = .next (t.setSt b) := by
  obtain ⟨hsp, rfl⟩ | ⟨hsp, rfl⟩ := exec_ret_cases h
  · exact exec_ret_of_empty (s := s.setSt b) hsp
  · exact exec_ret_of_pos (s := s.setSt b) hsp

theorem exec_call_setSt (b : Byte) {nnn : Addr} (h : exec (.call nnn) s = .next t) :
    exec (.call nnn) (s.setSt b) = .next (t.setSt b) := by
  obtain ⟨hsp, rfl⟩ | ⟨hsp, rfl⟩ := exec_call_cases h
  · exact exec_call_of_full (s := s.setSt b) nnn hsp
  · exact exec_call_of_lt (s := s.setSt b) nnn hsp

/-- Another ST stays what it is, or LD ST overwrites it. -/
theorem exec_setSt (b : Byte) (h : exec i s = .next t) :
    ∃ u, exec i (s.setSt b) = .next u ∧ (u = t.setSt b ∨ u = t) := by
  cases i with
  | ldStVx =>
    cases h
    exact ⟨_, rfl, .inr rfl⟩
  | ret => exact ⟨_, exec_ret_setSt b h, .inl rfl⟩
  | call => exact ⟨_, exec_call_setSt b h, .inl rfl⟩
  | _ =>
    obtain ⟨-, -, -, hcalls, -⟩ := exec_writesOnlyItsPieces h
    have hstack : t.setSt b = t.withStAndStack b s.stack := by
      rw [← (hcalls (by simp)).1]
      rfl
    rw [hstack]
    exact ⟨_, exec_withStAndStack b s.stack (by simp) (by simp) h, .inl rfl⟩

/-- Settles O56: STEP keeps the two states related: the second is the first with the other ST, or,
once LD ST has overwritten it, the first itself. -/
theorem soundTimerIsReadByNoInstruction : Obligations.SoundTimerIsReadByNoInstruction := by
  intro s t b h
  obtain ⟨u, hu, hrel⟩ := step_keeps_related (s := s) (s' := s.setSt b)
    (R := fun t u => u = t.setSt b ∨ u = t) rfl rfl (fun _ => rfl) (.inl rfl)
    (fun _ _ _ _ => .inl rfl) (fun _ _ => exec_setSt b) h
  refine ⟨u, hu, ?_⟩
  obtain rfl | rfl := hrel
  · exact ⟨rfl, .inl rfl⟩
  · exact ⟨rfl, .inr rfl⟩

/-! ### Stale stack entries -/

theorem exec_setCalls_stale {stack : Vector Word 16}
    (hstale : ∀ k : Fin 16, k.val < s.sp.val → stack[k.val] = s.stack[k.val])
    (h : exec i s = .next t) :
    ∃ t', exec i (s.setCalls stack s.sp) = .next t' ∧ SameButStaleEntries t t' := by
  cases i with
  | ret =>
    obtain ⟨hsp, rfl⟩ | ⟨hsp, rfl⟩ := exec_ret_cases h
    · exact ⟨_, exec_ret_of_empty (s := s.setCalls stack s.sp) hsp, rfl, hstale⟩
    · have htop : stack[s.sp.val - 1] = s.stack[s.sp.val - 1] :=
        hstale ⟨s.sp.val - 1, by omega⟩ (Nat.sub_lt hsp Nat.one_pos)
      refine ⟨_, exec_ret_of_pos (s := s.setCalls stack s.sp) hsp, ?_,
        fun k hk => hstale k (hk.trans_le (Nat.sub_le _ _))⟩
      simp only [State.setCalls, State.setPc, htop]
  | call nnn =>
    obtain ⟨hsp, rfl⟩ | ⟨hsp, rfl⟩ := exec_call_cases h
    · exact ⟨_, exec_call_of_full (s := s.setCalls stack s.sp) nnn hsp, rfl, hstale⟩
    · refine ⟨_, exec_call_of_lt (s := s.setCalls stack s.sp) nnn hsp, rfl, fun k hk => ?_⟩
      simp only [State.setPc_stack, State.setCalls_stack, State.setCalls_pc, State.setCalls_sp,
        State.setPc_sp, Vector.getElem_set] at hk ⊢
      split
      · rfl
      · exact hstale k (by omega)
  | ldStVx =>
    cases h
    exact ⟨_, rfl, rfl, hstale⟩
  | _ =>
    obtain ⟨-, -, hst, hcalls, -⟩ := exec_writesOnlyItsPieces h
    obtain ⟨hstack, hsp⟩ := hcalls (by simp)
    refine ⟨_, exec_withStAndStack s.st stack (by simp) (by simp) h, ?_, fun k hk => ?_⟩
    · rw [← hst (by simp)]
      rfl
    · rw [hsp] at hk
      simp only [hstack]
      exact hstale k hk

/-- Settles O57: RET reads the entry below SP, CALL writes the one at SP, and nothing else touches
the stack. -/
theorem staleStackEntriesAreUnreadable : Obligations.StaleStackEntriesAreUnreadable := by
  rintro s s' t ⟨hs', hstale⟩ h
  have hcalls : s' = s.setCalls s'.stack s.sp := hs'
  rw [hcalls]
  exact step_keeps_related (s := s) (s' := s.setCalls s'.stack s.sp) rfl rfl (fun _ => rfl)
    ⟨rfl, hstale⟩ (fun _ _ _ _ => ⟨rfl, hstale⟩)
    (fun _ _ => exec_setCalls_stale (s := s.advance) hstale) h

end Sys2Proof.Machine
end

section
/-! The registers an instruction reads (10_state.md R25): run from a state whose other registers
differ, an instruction that completes ends the same but for the registers it does not write. -/

namespace Sys2Proof.Machine

open Claims

variable {s t : State} {v : Vector Byte 16} {i : Instr} {x y : Reg}

/-! ### The shared operations under other registers -/

theorem writesOf_setV (s : State) (v : Vector Byte 16) (i : Instr) :
    writesOf (s.setV v) i = writesOf s i := by
  cases i <;> rfl

theorem State.skipIf_setV (s : State) (c : Bool) :
    (s.setV v).skipIf c = (s.skipIf c).setV v := by
  cases c <;> rfl

theorem State.dataAccess_setV (s : State) (i : Instr) (n : Nat) {goOn goOn' : State}
    (h : goOn' = goOn.setV v) :
    (s.setV v).dataAccess i n goOn' = (s.dataAccess i n goOn).setV v := by
  rw [h, State.dataAccess, State.dataAccess, apply_ite (State.setV · v)]
  rfl

/-- An access in range goes on whatever the registers hold. -/
theorem State.dataAccess_setV_of_inRange {n : Nat} (hrange : accessInRange s.i.toNat n = true)
    (goOn : State) : (s.setV v).dataAccess i n goOn = goOn :=
  if_pos hrange

theorem State.readBytes_setV (s : State) (a n : Nat) : (s.setV v).readBytes a n = s.readBytes a n :=
  State.readBytes_congr _ s n a fun _ _ => rfl

theorem State.drawSprite_setV (n : Nibble) (hx : (s.setV v).reg x = s.reg x)
    (hy : (s.setV v).reg y = s.reg y) :
    (s.setV v).drawSprite x y n = s.drawSprite x y n := by
  rw [State.drawSprite, State.drawSprite, hx, hy, State.setV_i, State.readBytes_setV, State.setV_disp]

theorem State.regsUpTo_setV (h : ∀ r, r ≤ x → (s.setV v).reg r = s.reg r) :
    (s.setV v).regsUpTo x = s.regsUpTo x := by
  refine List.ext_getElem (by rw [State.regsUpTo_length, State.regsUpTo_length]) fun k h₁ h₂ => ?_
  have hk : k ≤ x.val := by
    rw [State.regsUpTo_length] at h₁
    omega
  rw [← List.getD_eq_getElem _ 0 h₁, ← List.getD_eq_getElem _ 0 h₂, State.regsUpTo_getD x _ k hk,
    State.regsUpTo_getD x _ k hk]
  exact h _ hk

/-! ### Running alike -/

/-- From the registers `v` the instruction ends as it does from `s`, but for registers that it does
not write. -/
def RunsAlike (i : Instr) (s : State) (v : Vector Byte 16) (t : State) : Prop :=
  ∃ v', exec i (s.setV v) = .next (t.setV v') ∧ ∀ r ∈ writesOf s i, (t.setV v').reg r = t.reg r

theorem runsAlike_of_noWrite (hw : writesOf s i = [])
    (h : exec i (s.setV v) = .next (t.setV v)) : RunsAlike i s v t :=
  ⟨v, h, by simp [hw]⟩

theorem runsAlike_of_write {b : Byte} (hw : writesOf s i = [x]) (ht : t.reg x = b)
    (h : exec i (s.setV v) = .next ((t.setV v).setReg x b)) : RunsAlike i s v t := by
  refine ⟨v.set x.val b, h, fun r hr => ?_⟩
  obtain rfl : r = x := List.mem_singleton.1 (hw ▸ hr)
  rw [ht]
  exact (t.setV v).setReg_reg_same r b

theorem runsAlike_of_setReg {b : Byte} (hw : writesOf s i = [x])
    (h : exec i (s.setV v) = .next ((s.setV v).setReg x b)) : RunsAlike i s v (s.setReg x b) :=
  runsAlike_of_write hw (s.setReg_reg_same x b) h

theorem runsAlike_of_setResultThenFlag {b : Byte} {c : Bool} (hw : writesOf s i = [x, 15])
    (h : exec i (s.setV v) = .next ((s.setV v).setResultThenFlag x b c)) :
    RunsAlike i s v (s.setResultThenFlag x b c) := by
  refine ⟨((s.setV v).setResultThenFlag x b c).v, h, fun r hr => ?_⟩
  have hmem : r = x ∨ r = flagReg := by simpa [hw, flagReg] using hr
  refine ((s.setV v).setResultThenFlag_reg x r b c).trans ?_
  rw [s.setResultThenFlag_reg]
  obtain rfl | rfl := hmem <;> simp

/-! ### The instructions -/

theorem ret_runsAlike (h : exec .ret s = .next t) (hf : t.fault = .none) :
    RunsAlike .ret s v t := by
  obtain ⟨hsp, rfl⟩ := ret_completes h hf
  exact runsAlike_of_noWrite rfl (exec_ret_of_pos (s := s.setV v) hsp)

theorem call_runsAlike {nnn : Addr} (h : exec (.call nnn) s = .next t) (hf : t.fault = .none) :
    RunsAlike (.call nnn) s v t := by
  obtain ⟨hsp, rfl⟩ := call_completes h hf
  exact runsAlike_of_noWrite rfl (exec_call_of_lt (s := s.setV v) nnn hsp)

theorem ldVxK_runsAlike (h : exec (.ldVxK x) s = .next t) : RunsAlike (.ldVxK x) s v t := by
  obtain ⟨hfirst, rfl⟩ | ⟨k, hfirst, rfl⟩ := exec_ldVxK_cases h
  · exact runsAlike_of_noWrite (writesOf_ldVxK_of_none x hfirst)
      (exec_ldVxK_of_none (s := s.setV v) x hfirst)
  · exact runsAlike_of_setReg (writesOf_ldVxK_of_some x hfirst)
      (exec_ldVxK_of_some (s := s.setV v) x hfirst)

/-- DRW reads its origin registers; the sprite and the display are not registers. -/
theorem drw_runsAlike {n : Nibble} (hx : (s.setV v).reg x = s.reg x)
    (hy : (s.setV v).reg y = s.reg y) (h : exec (.drw x y n) s = .next t) (hf : t.fault = .none) :
    RunsAlike (.drw x y n) s v t := by
  cases h
  obtain ⟨hrange, heq⟩ := dataAccess_of_completes hf
  rw [heq]
  refine runsAlike_of_write (x := flagReg) rfl (State.setReg_reg_same _ flagReg _) ?_
  rw [exec, execDrw, State.drawSprite_setV n hx hy, State.dataAccess_setV_of_inRange hrange]
  rfl

theorem loadRegs_runsAlike (h : exec (.loadRegs x) s = .next t) (hf : t.fault = .none) :
    RunsAlike (.loadRegs x) s v t := by
  cases h
  obtain ⟨hrange, heq⟩ := dataAccess_of_completes hf
  rw [heq]
  refine ⟨((s.setV v).loadUpTo x).v, ?_, fun r hr => ?_⟩
  · rw [exec, execLoadRegs, State.dataAccess_setV_of_inRange hrange]
    rfl
  · have hle : r ≤ x := by simpa [writesOf] using hr
    refine ((s.setV v).loadUpTo_reg x r).trans ?_
    rw [s.loadUpTo_reg, if_pos hle, if_pos hle]
    rfl

/-- Every instruction that completes, by what it reads: nothing, one register, two, or a block. -/
theorem exec_runsAlike (hreads : ∀ r ∈ readsOf i, (s.setV v).reg r = s.reg r)
    (h : exec i s = .next t) (hf : t.fault = .none) : RunsAlike i s v t := by
  cases i with
  | ret => exact ret_runsAlike h hf
  | call => exact call_runsAlike h hf
  | ldVxK => exact ldVxK_runsAlike h
  | loadRegs => exact loadRegs_runsAlike h hf
  | cls | jp | ldI =>
    cases h
    exact runsAlike_of_noWrite rfl rfl
  | ldByte | ldVxDt =>
    cases h
    exact runsAlike_of_setReg rfl rfl
  | rnd x kk =>
    cases h
    exact runsAlike_of_write rfl (s.setReg_reg_same x _) rfl
  | seByte x | sneByte x | skp x | sknp x =>
    have hx := hreads x (by simp [readsOf])
    cases h
    refine runsAlike_of_noWrite rfl ?_
    rw [← s.skipIf_setV, ← hx]
    rfl
  | seReg x y | sneReg x y =>
    have hx := hreads x (by simp [readsOf])
    have hy := hreads y (by simp [readsOf])
    cases h
    refine runsAlike_of_noWrite rfl ?_
    rw [← s.skipIf_setV, ← hx, ← hy]
    rfl
  | jpV0 =>
    have hx := hreads 0 (by simp [readsOf])
    cases h
    refine runsAlike_of_noWrite rfl ?_
    rw [← hx]
    rfl
  | ldDtVx x | ldStVx x | addIVx x | ldFVx x =>
    have hx := hreads x (by simp [readsOf])
    cases h
    refine runsAlike_of_noWrite rfl ?_
    rw [← hx]
    rfl
  | addByte x =>
    have hx := hreads x (by simp [readsOf])
    cases h
    rw [← hx]
    exact runsAlike_of_setReg rfl rfl
  | ldReg x y =>
    have hy := hreads y (by simp [readsOf])
    cases h
    rw [← hy]
    exact runsAlike_of_setReg rfl rfl
  | orReg x y | andReg x y | xorReg x y =>
    have hx := hreads x (by simp [readsOf])
    have hy := hreads y (by simp [readsOf])
    cases h
    rw [← hx, ← hy]
    exact runsAlike_of_setReg rfl rfl
  | shr x | shl x =>
    have hx := hreads x (by simp [readsOf])
    cases h
    rw [← hx]
    exact runsAlike_of_setResultThenFlag rfl rfl
  | addReg x y | subReg x y | subnReg x y =>
    have hx := hreads x (by simp [readsOf])
    have hy := hreads y (by simp [readsOf])
    cases h
    rw [← hx, ← hy]
    exact runsAlike_of_setResultThenFlag rfl rfl
  | drw x y =>
    exact drw_runsAlike (hreads x (by simp [readsOf])) (hreads y (by simp [readsOf])) h hf
  | ldBVx x =>
    have hx := hreads x (by simp [readsOf])
    cases h
    refine runsAlike_of_noWrite rfl ?_
    rw [exec, execLdBVx, hx]
    exact congrArg Host.Outcome.next (s.dataAccess_setV _ _ rfl)
  | storeRegs x =>
    have hblock : (s.setV v).regsUpTo x = s.regsUpTo x :=
      State.regsUpTo_setV fun r hr => hreads r (by simpa [readsOf] using hr)
    cases h
    refine runsAlike_of_noWrite rfl ?_
    rw [exec, execStoreRegs, hblock]
    exact congrArg Host.Outcome.next (s.dataAccess_setV _ _ rfl)

/-- Settles O54: what is read is the same, so the writes are the same; a register that is not
written keeps its own value. -/
theorem onlyListedRegistersMatter : Obligations.OnlyListedRegistersMatter := by
  intro i s t v hreads _ h hf
  obtain ⟨v', hexec, hwrites⟩ := exec_runsAlike hreads h hf
  refine ⟨t.setV v', hexec, rfl, hwrites, fun r hr => exec_reg_of_not_mem hexec ?_⟩
  rwa [writesOf_setV]

end Sys2Proof.Machine
end

section
/-! Memory through the instructions and the host: a word placed at pc and fetched (30_encoding.md
R70), blocks stored and read back (42_memory_index.md R148; 20_memory.md R66), the image of a LOAD
(45_public_accessors.md R191), and memories compared by what they read as. -/

namespace Sys2Proof.Machine

open Claims

variable {s t : State} {i : Instr}

/-! ### A placed word -/

theorem State.readWord_storeBytes_wordBytes (s : State) (a : Nat) (w : Word) :
    (s.storeBytes a (wordBytes w)).readWord a = w := by
  have hhi : (s.storeBytes a (wordBytes w)).readByte a = w.extractLsb' 8 8 :=
    s.storeBytes_readByte_add a (bs := wordBytes w) (show 0 < 2 by decide)
  have hlo : (s.storeBytes a (wordBytes w)).readByte (a + 1) = w.extractLsb' 0 8 :=
    s.storeBytes_readByte_add a (bs := wordBytes w) (show 1 < 2 by decide)
  rw [State.readWord, hhi, hlo, wordOfBytes_bytes]

theorem State.withFetchWord_encode (i : Instr) (hpc : s.pc.toNat ≤ 0xFFE) :
    s.withFetchWord 16 (encode i).toNat =
      (s.setFault .none).storeBytes s.pc.toNat (wordBytes (encode i)) := by
  have hword : BitVec.ofNat 16 ((encode i).toNat % 2 ^ 16) = encode i :=
    ofNat_eq_encode (Nat.mod_eq_of_lt (encode i).isLt).symm
  rw [State.withFetchWord, hword, State.placeWord, if_pos hpc]

/-- Settles O7: the two bytes placed at pc are fetched as the word, which decodes to its
instruction. -/
theorem placedWordRunsNext : Obligations.PlacedWordRunsNext := by
  intro s i hpc
  rw [State.withFetchWord_encode i hpc]
  have hdecode : decodeWord (((s.setFault .none).storeBytes s.pc.toNat
      (wordBytes (encode i))).readWord s.pc.toNat) = some i := by
    rw [State.readWord_storeBytes_wordBytes, decodeWord_encode]
  exact ⟨_, step_of_decoded rfl hpc hdecode, rfl, rfl,
    ((Frame.refl _ (s.setFault .none)).storeBytes le_rfl le_rfl).setPc rfl _⟩

/-! ### Blocks stored and read back -/

/-- Settles O28: the store's bytes are the registers, and the load's registers are the bytes. -/
theorem registerBlockRoundTrip : Obligations.RegisterBlockRoundTrip := by
  intro x s hrange
  obtain ⟨-, hstore, -⟩ := registerBlockStore x s
  obtain ⟨t, hexec, hbytes, hregs, -⟩ := hstore hrange
  refine ⟨t, hexec, fun r => hregs r List.not_mem_nil, fun u hi hsame => ?_⟩
  obtain ⟨-, hload, -⟩ := registerBlockLoad x u
  obtain ⟨v, hexec', hloaded, habove, -⟩ := hload (by rwa [DataInRange, hi])
  refine ⟨v, hexec', fun r hr => ?_, fun r hr => habove r (by simpa using hr)⟩
  rw [hloaded r hr, hi, hsame r hr, hbytes r hr]

theorem State.fetch_toNat (hpc : t.pc.toNat ≤ 0xFFE) :
    t.fetch.map BitVec.toNat =
      some (256 * (t.readByte t.pc.toNat).toNat + (t.readByte (t.pc.toNat + 1)).toNat) := by
  rw [State.fetch_word hpc, Option.map_some, t.readWord_toNat]

theorem State.load_pc (s : State) (image : List Byte) : (s.load image).pc = s.pc := by
  unfold State.load
  split <;> rfl

/-- Settles O29: the fetch reads memory as it stands, so it reads the bytes just stored. -/
theorem fetchSeesStoredBytes : Obligations.FetchSeesStoredBytes := by
  refine ⟨fun x s k hrange hk hpc => ?block, fun x s hrange hpc => ?bcd,
    fun hi lo rest s hlen hpc => ?image⟩
  case block =>
    obtain ⟨-, hstore, -⟩ := registerBlockStore x s
    obtain ⟨t, hexec, hbytes, -, hpc', -⟩ := hstore hrange
    have hat : t.pc.toNat = s.i.toNat + k.val := (congrArg BitVec.toNat (hpc' rfl)).trans hpc
    have hfirst := hbytes k (Nat.le_of_succ_le hk)
    have hsecond := hbytes ⟨k.val + 1, by omega⟩ hk
    unfold DataInRange at hrange
    refine ⟨t, hexec, ?_⟩
    rw [State.fetch_toNat (by omega), hat, hfirst, Nat.add_assoc, hsecond]
    rfl
  case bcd =>
    obtain ⟨-, hstore, -⟩ := bcdStoresThreeDigits x s
    obtain ⟨t, hexec, hhundreds, htens, -, -, hpc', -⟩ := hstore hrange
    have hat : t.pc = s.i := (hpc' rfl).trans hpc
    unfold DataInRange at hrange
    refine ⟨t, hexec, ?_⟩
    rw [State.fetch_toNat (by rw [hat]; omega), hat, hhundreds, htens]
  case image =>
    have hat : (s.load (hi :: lo :: rest)).pc = 0x200#16 := (s.load_pc _).trans hpc
    have hfits : (hi :: lo :: rest).length ≤ 3584 := Nat.add_le_add_right hlen 2
    have hfirst := s.load_readByte (k := 0) hfits (by simp)
    have hsecond := s.load_readByte (k := 1) hfits (by simp)
    rw [State.fetch_toNat (by rw [hat]; decide), hat]
    exact congrArg₂ (fun a b : Byte => some (256 * a.toNat + b.toNat)) hfirst hsecond

/-! ### LOAD -/

/-- Settles O39: an image that fits is one block store at 0x200; a longer one is not stored. -/
theorem loadCopiesTheImageOrRejectsIt : Obligations.LoadCopiesTheImageOrRejectsIt := by
  refine fun image s => ⟨fun hfits => ?_, fun hlong => ?_⟩
  · refine ⟨(imageFits_iff image).2 hfits, s.load image, rfl, fun k => s.load_readByte hfits,
      fun a ha => ?_, ?_⟩
    · rw [s.load_fits image hfits, s.storeBytes_readByte, if_neg (by omega)]
    · rw [s.load_fits image hfits]
      rfl
  · have hreject : imageFits image = false := by
      rw [← Bool.not_eq_true, imageFits_iff]
      exact Nat.not_le.2 hlong
    exact ⟨hreject, congrArg Host.Outcome.next (s.load_rejects image hlong)⟩

/-! ### Memories that read the same -/

section
variable {font : Font} {m m' : Memory}

/-- An address that reads as something other than its background is listed with that value. -/
theorem Memory.mem_of_read_ne_background {a : Nat}
    (h : m.read font a ≠ Memory.background font a) : (a, m.read font a) ∈ m := by
  induction m with
  | nil => exact absurd rfl h
  | cons c m ih =>
    rw [Memory.read] at h ⊢
    split_ifs at h ⊢ with hc
    · exact hc ▸ List.mem_cons_self
    · exact List.mem_cons_of_mem c (ih h)

/-- Where addresses rise, an entry is the only one of its address, so the address reads as it. -/
theorem Memory.read_of_mem (hm : m.Pairwise fun c d => c.1 < d.1) {c : Host.Cell} (hc : c ∈ m) :
    m.read font c.1 = c.2 := by
  induction m with
  | nil => cases hc
  | cons d m ih =>
    obtain ⟨hlt, hm'⟩ := List.pairwise_cons.1 hm
    rw [Memory.read]
    obtain rfl | hc' := List.mem_cons.1 hc
    · exact if_pos rfl
    · rw [if_neg (hlt c hc').ne, ih hm' hc']

/-- The entries of a canonical memory are its reads that differ from the background. -/
theorem Memory.mem_iff_of_wf (hm : m.wf font) (c : Host.Cell) :
    c ∈ m ↔
      c.1 < Config.memSize ∧ m.read font c.1 = c.2 ∧ c.2 ≠ Memory.background font c.1 := by
  obtain ⟨hrising, hentries⟩ := hm
  constructor
  · intro hc
    obtain ⟨hlt, hne⟩ := hentries c hc
    exact ⟨hlt, Memory.read_of_mem hrising hc, hne⟩
  · rintro ⟨-, hread, hne⟩
    have hc := Memory.mem_of_read_ne_background (hread.symm ▸ hne)
    rwa [hread] at hc

end

/-- Settles O59: both lists hold the same entries, in the one order of rising addresses. -/
theorem canonicalMemoriesAreEqualWhenTheyReadTheSame :
    Obligations.CanonicalMemoriesAreEqualWhenTheyReadTheSame := by
  intro font m m' hm hm' hread
  have hmem (c : Host.Cell) : c ∈ m ↔ c ∈ m' := by
    rw [Memory.mem_iff_of_wf hm, Memory.mem_iff_of_wf hm']
    refine and_congr_right fun hlt => ?_
    rw [hread c.1 (Nat.le_of_lt_succ hlt)]
  have hnodup {l : Memory} (hl : l.wf font) : l.Nodup :=
    hl.1.imp fun hlt heq => hlt.ne (congrArg Prod.fst heq)
  have hperm : m.Perm m' := (List.perm_ext_iff_of_nodup (hnodup hm) (hnodup hm')).2 hmem
  exact hperm.eq_of_pairwise (fun c d _ _ hcd hdc => absurd hcd hdc.asymm) hm.1 hm'.1

end Sys2Proof.Machine
end

section
/-! The random byte, the corners of DRW, the end states and the glyphs (41_register_arithmetic.md
R132; 43_display.md R161, R162; 70_reset_and_hazards.md R231, R233, R240; 20_memory.md R57). -/

namespace Sys2Proof.Claims

open Machine

theorem Frame.setDraws {f : Footprint} {s t : State} (hdraws : f.draws = true) (h : Frame f s t)
    (n : Nat) : Frame f s (t.setDraws n) := by
  obtain ⟨hreg, hpc, hi, hcalls, hdt, hst, hdisp, -, hrest⟩ := h
  exact ⟨hreg, hpc, hi, hcalls, hdt, hst, hdisp, by simp [hdraws], hrest⟩

end Sys2Proof.Claims

namespace Sys2Proof.Machine

open Claims

variable {s t u : State} {x y : Reg} {n : Nibble}

/-! ### RND -/

/-- Settles O23: RND writes the masked draw to Vx and advances the draw counter. -/
theorem rndMasksOneFreeDraw : Obligations.RndMasksOneFreeDraw := by
  intro x kk s
  have hreg : ((s.takeRandom s.nextDraw x kk).setDraws (s.draws + 1)).reg x = s.nextDraw &&& kk :=
    s.setReg_reg_same x _
  refine ⟨decodes_of_encode_toNat (formatXNN_toNat ..), _, rfl, fun k => ?_, fun hkk => ?_, rfl,
    ((Frame.refl _ s).setReg List.mem_cons_self _).setDraws rfl _⟩
  · rw [hreg, BitVec.getLsbD_and]
    rfl
  · rw [val, hreg, hkk]
    exact congrArg BitVec.toNat BitVec.and_zero

/-! ### DRW -/

/-- Settles O31: with no row the drawing is the display as it stands, with no collision. -/
theorem drawOfNoRowsOnlyClearsFlag : Obligations.DrawOfNoRowsOnlyClearsFlag := by
  intro x y s
  have hexec : exec (.drw x y 0) s = .next (s.setFlag false) :=
    exec_drw_of_inRange s x y 0 (.inl rfl)
  exact ⟨_, hexec, val_setFlag s false, (Frame.refl _ s).setReg (by simp [flagReg]) _⟩

/-- DRW that completes: the pixels under one bits toggled and no other, VF whether one of them was
set, and every byte of memory and I as before. -/
theorem exec_drw_spec (x y : Reg) (n : Nibble) (s : State)
    (h : n.toNat = 0 ∨ DataInRange n.toNat s) :
    ∃ t, exec (.drw x y n) s = .next t ∧
      (∀ px py, SpriteOn s (val s x) (val s y) n.toNat px py →
        t.disp.pixel px py = !s.disp.pixel px py) ∧
      (∀ px py, ¬ SpriteOn s (val s x) (val s y) n.toNat px py →
        t.disp.pixel px py = s.disp.pixel px py) ∧
      (val t 15 = 1 ↔
        ∃ px py, SpriteOn s (val s x) (val s y) n.toNat px py ∧ s.disp.pixel px py = true) ∧
      t.i = s.i ∧ ∀ a, t.readByte a = s.readByte a := by
  refine ⟨_, exec_drw_of_inRange s x y n h, fun px py => (drawSprite_pixel s x y n px py).1,
    fun px py => (drawSprite_pixel s x y n px py).2, ?_, rfl, fun _ => rfl⟩
  rw [val_setFlag, ← drawSprite_collided_iff]
  simp

theorem spriteOn_congr (hi : u.i = s.i) (hread : ∀ a, u.readByte a = s.readByte a)
    (hx : u.reg x = s.reg x) (hy : u.reg y = s.reg y) (px : Fin 64) (py : Fin 32) :
    SpriteOn u (val u x) (val u y) n.toNat px py ↔ SpriteOn s (val s x) (val s y) n.toNat px py := by
  simp only [SpriteOn, val, hi, hread, hx, hy]

/-- Settles O32: the second draw has one bits on the same pixels, each toggled by the first. -/
theorem drawTwiceRestoresTheDisplay : Obligations.DrawTwiceRestoresTheDisplay := by
  intro x y n s hrange
  obtain ⟨t, hexec, hon, hoff, hflag, hi, hread⟩ := exec_drw_spec x y n s hrange
  refine ⟨t, hexec, hflag, fun u hdisp hread' hi' hx hy => ?_⟩
  have hiu : u.i = s.i := hi'.trans hi
  have hsame := spriteOn_congr (n := n) hiu (fun a => (hread' a).trans (hread a)) hx hy
  obtain ⟨v, hexec', hon', hoff', hflag', -⟩ :=
    exec_drw_spec x y n u (by rwa [DataInRange, hiu])
  refine ⟨v, hexec', fun px py => ?_, hflag'.trans ?_⟩
  · by_cases hsprite : SpriteOn s (val s x) (val s y) n.toNat px py
    · rw [hon' px py ((hsame px py).2 hsprite), hdisp, hon px py hsprite, Bool.not_not]
    · rw [hoff' px py (mt (hsame px py).1 hsprite), hdisp, hoff px py hsprite]
  · refine exists_congr fun px => exists_congr fun py => ?_
    rw [hsame px py, hdisp]
    refine and_congr_right fun hsprite => ?_
    rw [hon px py hsprite, Bool.not_eq_true']

/-! ### RESET and the fault record -/

/-- Settles O43: STEP stands still on a halted machine, TICK, KEY and LOAD write other fields, and
RESET is construction. -/
theorem onlyResetClearsAFault : Obligations.OnlyResetClearsAFault := by
  refine ⟨fun s => ?_, fun op s hhalted hop => ?_⟩
  · refine ⟨s.hostReset, rfl, rfl, fun a ha _ => ?_⟩
    exact Memory.background_of_le s.font (le_trans (by decide) ha)
  · cases op with
    | step => exact ⟨s, step_of_halted hhalted, rfl⟩
    | tick | key => exact ⟨_, rfl, rfl⟩
    | load image => exact ⟨_, rfl, s.load_fault image⟩
    | reset => exact absurd rfl hop

theorem State.construct_readWord_progBase (font : Font) :
    (State.construct font).readWord (State.construct font).pc.toNat = 0x0000#16 := by
  have hzero {a : Nat} (ha : 80 ≤ a) : (State.construct font).readByte a = 0 :=
    Memory.background_of_le font ha
  have hpc : (State.construct font).pc.toNat = 0x200 := rfl
  rw [State.readWord, hpc, hzero (by decide), hzero (by decide)]
  rfl

/-- Settles O44: the program region reads 0x00, and 0x0000 is an illegal word. -/
theorem stepBeforeLoadIsUnknown : Obligations.StepBeforeLoadIsUnknown := by
  intro font
  have hword := State.construct_readWord_progBase font
  have hstep := step_of_unknown_word (s := State.construct font) rfl
    (show (0x200#16).toNat ≤ 0xFFE by decide) (by rw [hword]; decide)
  rw [hstep, hword]
  rfl

/-! ### The end states -/

theorem runOps_steps_of_fixed (h : step s = .next s) (k : Nat) :
    runOps (List.replicate k .step) s = .next s := by
  rw [← List.append_nil (List.replicate k _), runOps_steps_fixed s h k, runOps]

theorem zext16_ofNat_toNat {a : Word} (ha : a.toNat ≤ 0xFFE) :
    zext16 (BitVec.ofNat 12 a.toNat) = a := by
  refine BitVec.eq_of_toNat_eq ?_
  rw [zext16_toNat, BitVec.toNat_ofNat]
  exact Nat.mod_eq_of_lt (by omega)

theorem step_selfLoop_eq_self (h : s.AtSelfLoop) : step s = .next s := by
  obtain ⟨hf, hpc, hword⟩ := h
  have hencode : (encode (.jp (BitVec.ofNat 12 s.pc.toNat))).toNat = s.wordAtPc := by
    rw [hword, encode, formatA_toNat, ← zext16_toNat, zext16_ofNat_toNat hpc]
    rfl
  rw [step_of_wordAtPc hf hpc hencode, exec, execJp, zext16_ofNat_toNat hpc]
  rfl

theorem step_keyWaitEnd_eq_self (h : s.AtKeyWait) : step s = .next s := by
  obtain ⟨hf, hpc, ⟨x, hword⟩, hreleased⟩ := h
  exact step_keyWait_eq_self x hf hpc hword hreleased

/-- Settles O58: each of the three ends is a fixed point of STEP. -/
theorem endStatesAreFixed : Obligations.EndStatesAreFixed := by
  rintro s k (hhalt | hloop | hwait)
  · exact runOps_steps_of_fixed (step_of_halted hhalt) k
  · exact runOps_steps_of_fixed (step_selfLoop_eq_self hloop) k
  · exact runOps_steps_of_fixed (step_keyWaitEnd_eq_self hwait) k

/-! ### The font table -/

/-- R57's glyphs against the default table: 80 bytes, compared by evaluation. -/
theorem defaultFont_rows : ∀ d : Fin 16, ∀ row, ∀ _h : row < 5,
    (Config.font[5 * d.val + row]).toNat = defaultGlyphs.getD d.val 0 / 256 ^ (4 - row) % 256 := by
  decide

/-- Settles O60: the glyph address is five times the digit, so its rows lie in the table; the
default table is compared byte by byte. -/
theorem ldFPointsAtTheGlyphOfTheFont : Obligations.LdFPointsAtTheGlyphOfTheFont := by
  refine ⟨fun x s hfont => ⟨_, rfl, fun row hrow => ?_⟩, defaultFont_rows⟩
  have haddr : (glyphAddr (s.reg x)).toNat + row = 5 * (val s x % 16) + row := by
    rw [glyphAddr_toNat, Nat.mul_comm, val]
  rw [State.setI_readByte, State.setI_i, haddr]
  exact hfont _ _

end Sys2Proof.Machine
end
